-- ==== Sys2Proof/Word.lean ====
section
/-! DEFINITION. The words and vocabulary of the block: bytes, command words, the two kinds of direction,
trace events, and what can be offered to the block. -/

namespace Sys2Proof

/-- A byte, "an integer in 0..255" (00_scope.md R8). -/
abbrev Byte := BitVec 8

/-- A 32-bit command word (30_encoding.md R54). -/
abbrev CommandWord := BitVec 32

/-- A frame: "an ordered byte sequence", offset 0 (the first byte transmitted) at the head
(30_encoding.md R45, 00_scope.md R8). -/
abbrev Frame := List Byte

/-- Movement directions of MOVE and RIDE (30_encoding.md R56). -/
inductive MoveDir where
  | forward
  | backward
  deriving DecidableEq, Repr

/-- Rotation directions of ROTATE and TURN (30_encoding.md R56). -/
inductive RotDir where
  | clockwise
  | counterClockwise
  deriving DecidableEq, Repr

/-- The events of a trace (00_scope.md R8). -/
inductive Event where
  /-- `TX(b)`: byte `b` handed to the serial transport. -/
  | tx (b : Byte)
  /-- `WAIT(n)`: a delay of `n` milliseconds during which the block does nothing. -/
  | wait (ms : Nat)
  /-- `RX(bs)`: the block took the bytes `bs` from the serial receive stream. -/
  | rx (bs : List Byte)
  deriving DecidableEq, Repr

/-- What can be put before the block for its next step: a command word at the command port
(10_state.md R20, 30_encoding.md R54), or a codec encoder run by itself, written as the frame
it builds (the model's own, log entry 4). -/
inductive Offer where
  | command (w : CommandWord)
  | codec (bytes : List Byte)
  deriving DecidableEq, Repr

/-- Why the decoder rejects an offer. -/
inductive Reject where
  /-- The word matches no row of the command table (30_encoding.md R61). -/
  | reservedWord (w : CommandWord)
  /-- The bytes are no frame that a codec encoder builds (30_encoding.md R52). -/
  | notAFrame (bytes : List Byte)
  deriving DecidableEq, Repr

end Sys2Proof
end

