-- ==== Sys2Proof/Machine/Codec.lean ====
section
/-! DEFINITION. The Frame Codec's pure part: the constants of a frame, the checksum generator and the
three encoders (30_encoding.md R45 to R49, 40_frame_codec.md R70 to R75). -/

namespace Sys2Proof.Machine

/-- `HEADER = 0x5500`, sent high byte first (00_scope.md R6, 20_memory.md R26). -/
def headerBytes : List Byte := [0x55, 0x00]

/-- `TAIL = 0x00AA`, sent high byte first (00_scope.md R6, 20_memory.md R26). -/
def tailBytes : List Byte := [0x00, 0xAA]

/-- `FT_WRITE`, the frame type of a write (00_scope.md R6). -/
def ftWrite : Byte := 0x00

/-- `FT_READ`, the frame type of a read (00_scope.md R6). -/
def ftRead : Byte := 0x02

/-- `NOT8(v) = 255 - (v mod 256)` (00_scope.md R8). -/
def not8 (v : Nat) : Byte := BitVec.ofNat 8 (255 - v % 256)

/-- The sum of the integer values of some bytes: a mathematical sum, no width (92_eei_decisions.md D23). -/
def byteSum : List Byte → Nat
  | [] => 0
  | b :: bs => b.toNat + byteSum bs

/-- `CHECKSUM(body)` (40_frame_codec.md R70). -/
def checksum (body : List Byte) : Byte := not8 (byteSum body)

/-- The summed part of a frame: length, frame type, address, payload; the length is the total byte
count `8 + N` (30_encoding.md R45, R49). -/
def frameBody (frameType address : Byte) (payload : List Byte) : List Byte :=
  BitVec.ofNat 8 (8 + payload.length) :: frameType :: address :: payload

/-- The general frame layout (30_encoding.md R45). -/
def buildFrame (frameType address : Byte) (payload : List Byte) : Frame :=
  headerBytes ++ frameBody frameType address payload ++ [checksum (frameBody frameType address payload)] ++ tailBytes

/-- `ENC_WRITE(a, d)`, format F9W (40_frame_codec.md R72, 30_encoding.md R46). -/
def encWriteFrame (a d : Byte) : Frame := buildFrame ftWrite a [d]

/-- `ENC_WRITE3(a, d0, d1, d2)`, format F11W (40_frame_codec.md R73, 30_encoding.md R47). -/
def encWrite3Frame (a d0 d1 d2 : Byte) : Frame := buildFrame ftWrite a [d0, d1, d2]

/-- `ENC_READ(a, n)`, format F9R (40_frame_codec.md R74, 30_encoding.md R48). -/
def encReadFrame (a n : Byte) : Frame := buildFrame ftRead a [n]

end Sys2Proof.Machine
end

