-- ==== Sys2Proof/Syntax.lean ====
section
/-! DEFINITION. The instructions: one constructor per row of spec/opcode_table.json. -/

namespace Sys2Proof

/-- The ten commands of the command port (30_encoding.md R53, R55) and the three encoders of the Frame
Codec (40_frame_codec.md R72 to R74). The signed operands are mathematical integers (R58); which of
them a command word can carry is `Instr.WellFormed`. -/
inductive Instr where
  /-- `INIT`: the startup handshake (42_system_commands.md R105). -/
  | init
  /-- `HEIGHT h`: set the body height (43_motion_posture.md R113). -/
  | height (h : Int)
  /-- `LEAN a`: set the lean angle, in doubled degrees (43_motion_posture.md R114). -/
  | lean (a : Int)
  /-- `MOVE dir, s`: set the translation speed (43_motion_posture.md R115). -/
  | move (dir : MoveDir) (s : Int)
  /-- `ROTATE dir, s`: set the rotation speed (43_motion_posture.md R118). -/
  | rotate (dir : RotDir) (s : Int)
  /-- `STOP`: cancel translation and rotation (43_motion_posture.md R119). -/
  | stop
  /-- `LED mask, color`: set the colour of the selected quadrants (44_led_color.md R131). -/
  | led (mask : BitVec 4) (color : BitVec 24)
  /-- `SETSPD p`: write the cruise-speed register (42_system_commands.md R107). -/
  | setspd (p : Int)
  /-- `TURN dir`: rotate at cruise speed (43_motion_posture.md R122). -/
  | turn (dir : RotDir)
  /-- `RIDE dir`: move at cruise speed (43_motion_posture.md R121). -/
  | ride (dir : MoveDir)
  /-- `ENC_WRITE(a, d)`: build a single-byte write frame (40_frame_codec.md R72). -/
  | encWrite (a d : Byte)
  /-- `ENC_WRITE3(a, d0, d1, d2)`: build a three-byte write frame (40_frame_codec.md R73). -/
  | encWrite3 (a d0 d1 d2 : Byte)
  /-- `ENC_READ(a, n)`: build a read-request frame (40_frame_codec.md R74). -/
  | encRead (a n : Byte)
  deriving DecidableEq, Repr

end Sys2Proof
end

