-- ==== Sys2Proof/WellFormed.lean ====
section
/-! DEFINITION. Which instructions have an encoding: the operands a command word can carry. -/

namespace Sys2Proof

/-- A signed operand is an 8-bit two's-complement integer, -128..127 (00_scope.md R7, 92_eei_decisions.md D3). -/
abbrev SignedByte (x : Int) : Prop := -128 ≤ x ∧ x ≤ 127

/-- The check: every signed operand is a signed byte. The other operands (directions, the 4-bit mask,
the 24-bit colour, codec bytes) are well formed by their types (30_encoding.md R54, R55). -/
def Instr.isWellFormed : Instr → Bool
  | .init => true
  | .height h => decide (SignedByte h)
  | .lean a => decide (SignedByte a)
  | .move _ s => decide (SignedByte s)
  | .rotate _ s => decide (SignedByte s)
  | .stop => true
  | .led _ _ => true
  | .setspd p => decide (SignedByte p)
  | .turn _ => true
  | .ride _ => true
  | .encWrite _ _ => true
  | .encWrite3 _ _ _ _ => true
  | .encRead _ _ => true

/-- The well-formed instructions: those that have an encoding. -/
abbrev Instr.WellFormed (i : Instr) : Prop := i.isWellFormed = true

end Sys2Proof
end

