-- ==== Sys2Proof/Decode.lean ====
section
/-! DEFINITION. The decoder, total on every command word and on every byte sequence, and after it the
encoder, both from the tables of 30_encoding.md (R46 to R48 for frames, R54 to R56 for command words). -/

namespace Sys2Proof

open Sys2Proof.Machine

/-- `sext_8(v)`: bits [7:0] of a command word as a signed integer (00_scope.md R8, 30_encoding.md R55). -/
def signedOperand (w : CommandWord) : Int := (w.extractLsb' 0 8).toInt

/-- Bit 24 of a command word as a movement direction (30_encoding.md R56). -/
def moveDirBit (w : CommandWord) : MoveDir := if w.getLsbD 24 then .backward else .forward

/-- Bit 24 of a command word as a rotation direction (30_encoding.md R56). -/
def rotDirBit (w : CommandWord) : RotDir := if w.getLsbD 24 then .counterClockwise else .clockwise

/-- A word selects a row when `w AND mask = match` (30_encoding.md R55). -/
def selectsRow (pattern mask w : CommandWord) : Bool := w &&& mask == pattern

/-- The command table of 30_encoding.md R55, row by row; a word that selects no row is reserved (R61). -/
def decodeWord (w : CommandWord) : Except Reject Instr :=
  if selectsRow 0x00000000 0xFFFFFFFF w then .ok .init
  else if selectsRow 0x10000000 0xFFFFFF00 w then .ok (.height (signedOperand w))
  else if selectsRow 0x20000000 0xFFFFFF00 w then .ok (.lean (signedOperand w))
  else if selectsRow 0x30000000 0xFEFFFF00 w then .ok (.move (moveDirBit w) (signedOperand w))
  else if selectsRow 0x40000000 0xFEFFFF00 w then .ok (.rotate (rotDirBit w) (signedOperand w))
  else if selectsRow 0x50000000 0xFFFFFFFF w then .ok .stop
  else if selectsRow 0x60000000 0xF0000000 w then .ok (.led (w.extractLsb' 24 4) (w.extractLsb' 0 24))
  else if selectsRow 0x70000000 0xFFFFFF00 w then .ok (.setspd (signedOperand w))
  else if selectsRow 0x80000000 0xFEFFFFFF w then .ok (.turn (rotDirBit w))
  else if selectsRow 0x90000000 0xFEFFFFFF w then .ok (.ride (moveDirBit w))
  else .error (.reservedWord w)

/-- The frame formats F9W and F9R (30_encoding.md R46, R48), read from the nine bytes: the operands
stand at offsets 4 and 5, and every other byte must be the one the encoder puts there. -/
def decodeNine (bytes : List Byte) (a x : Byte) : Except Reject Instr :=
  if bytes = encWriteFrame a x then .ok (.encWrite a x)
  else if bytes = encReadFrame a x then .ok (.encRead a x)
  else .error (.notAFrame bytes)

/-- The frame format F11W (30_encoding.md R47), read from the eleven bytes. -/
def decodeEleven (bytes : List Byte) (a d0 d1 d2 : Byte) : Except Reject Instr :=
  if bytes = encWrite3Frame a d0 d1 d2 then .ok (.encWrite3 a d0 d1 d2)
  else .error (.notAFrame bytes)

/-- The codec encoder that builds a given byte sequence, if one does (30_encoding.md R46 to R48, R52). -/
def decodeFrame (bytes : List Byte) : Except Reject Instr :=
  match bytes with
  | [_, _, _, _, a, x, _, _, _] => decodeNine bytes a x
  | [_, _, _, _, a, d0, d1, d2, _, _, _] => decodeEleven bytes a d0 d1 d2
  | _ => .error (.notAFrame bytes)

/-- The decoder: total on every offer, rejecting by name. -/
def decode : Offer → Except Reject Instr
  | .command w => decodeWord w
  | .codec bytes => decodeFrame bytes

/-- The `k` low bytes of `w`, the least significant first: byte `i` is bits `8i+7 .. 8i`. -/
def lowBytes : Nat → Nat → List Byte
  | 0, _ => []
  | k + 1, w => BitVec.ofNat 8 w :: lowBytes k (w / 256)

/-- How many bytes an instruction that is offered as a frame has, when the table gives it `nbits` bits:
9 (F9W, F9R) or 11 (F11W) (30_encoding.md R51). -/
def frameBytes (nbits : Nat) : Nat := if nbits ≤ 72 then 9 else 11

/-- The offer that an opcode-table row of `nbits` bits and value `w` stands for: up to 32 bits a command
word; above that a frame whose offset-0 byte is bits 7..0 (log entry 15). -/
def tableOffer (nbits w : Nat) : Offer :=
  if nbits ≤ 32 then .command (BitVec.ofNat 32 w) else .codec (lowBytes (frameBytes nbits) w)

/-- What the decoder reads from an opcode-table row of `nbits` bits and value `w`. -/
def decodeTableWord (nbits w : Nat) : Option Instr :=
  match decode (tableOffer nbits w) with
  | .ok i => some i
  | .error _ => none

/-- A command word from its four fields `op`, `m`, `hi`, `v` (30_encoding.md R54). -/
def commandFields (op m : BitVec 4) (hi : BitVec 16) (v : Byte) : CommandWord := op ++ m ++ hi ++ v

/-- The `m` field of a movement direction: bit 24 is `dir` (30_encoding.md R54, R56). -/
def moveDirField : MoveDir → BitVec 4
  | .forward => 0
  | .backward => 1

/-- The `m` field of a rotation direction (30_encoding.md R54, R56). -/
def rotDirField : RotDir → BitVec 4
  | .clockwise => 0
  | .counterClockwise => 1

/-- The two's-complement byte of a signed operand (30_encoding.md R54). -/
def operandByte (x : Int) : Byte := BitVec.ofInt 8 x

/-- The encoder: the command word of a command (30_encoding.md R54, R55), the frame of a codec encoder
(R46 to R48). -/
def encode : Instr → Offer
  | .init => .command (commandFields 0x0 0 0 0)
  | .height h => .command (commandFields 0x1 0 0 (operandByte h))
  | .lean a => .command (commandFields 0x2 0 0 (operandByte a))
  | .move dir s => .command (commandFields 0x3 (moveDirField dir) 0 (operandByte s))
  | .rotate dir s => .command (commandFields 0x4 (rotDirField dir) 0 (operandByte s))
  | .stop => .command (commandFields 0x5 0 0 0)
  | .led mask color => .command (commandFields 0x6 mask (color.extractLsb' 8 16) (color.extractLsb' 0 8))
  | .setspd p => .command (commandFields 0x7 0 0 (operandByte p))
  | .turn dir => .command (commandFields 0x8 (rotDirField dir) 0 0)
  | .ride dir => .command (commandFields 0x9 (moveDirField dir) 0 0)
  | .encWrite a d => .codec (encWriteFrame a d)
  | .encWrite3 a d0 d1 d2 => .codec (encWrite3Frame a d0 d1 d2)
  | .encRead a n => .codec (encReadFrame a n)

end Sys2Proof
end

