-- ==== Sys2Proof/Machine/Flags.lean ====
section
/-! DEFINITION. The block has no flags and no condition codes (10_state.md section 3). The same section
names its only two data-dependent choices, and they stand here; neither leaves anything behind. -/

namespace Sys2Proof.Machine

/-- INIT's comparison of the status byte with `STATUS_ACTIVE = 0x00`, on the whole byte
(00_scope.md R6, 42_system_commands.md R105). -/
def statusActive (st : Byte) : Bool := st == 0x00

/-- LED's test of mask bit `i` (44_led_color.md R131). -/
def quadrantSelected (mask : BitVec 4) (i : Nat) : Bool := mask.getLsbD i

end Sys2Proof.Machine
end

