-- ==== Sys2Proof/Machine/Operands.lean ====
section
/-! DEFINITION. The arithmetic of the command mapper (41_arithmetic.md), the operand clamp of the command
port (30_encoding.md R57), the device addresses (20_memory.md R33) and the colour's bytes (R27). -/

namespace Sys2Proof.Machine

/-- `A_STATUS` (00_scope.md R6). -/
def addrStatus : Byte := 0x02
/-- `A_SPEED` (00_scope.md R6). -/
def addrSpeed : Byte := 0x30
/-- `A_ROT` (00_scope.md R6). -/
def addrRot : Byte := 0x32
/-- `A_HEIGHT` (00_scope.md R6). -/
def addrHeight : Byte := 0x35
/-- `A_LEAN` (00_scope.md R6). -/
def addrLean : Byte := 0x36
/-- `A_INIT` (00_scope.md R6). -/
def addrInit : Byte := 0x3E
/-- `A_LED_FL`, the first of the four LED quadrants (00_scope.md R6). -/
def addrLedFrontLeft : Byte := 0x69
/-- `INIT_DATA` (00_scope.md R6). -/
def initData : Byte := 0xFF
/-- `T_SETTLE` in milliseconds (00_scope.md R6). -/
def settleMs : Nat := 100
/-- `T_INIT` in milliseconds (00_scope.md R6). -/
def initMs : Nat := 1000
/-- `REPLY_LEN` (00_scope.md R6). -/
def replyLen : Nat := 9
/-- `REPLY_OFF`, zero-based (00_scope.md R6, 92_eei_decisions.md D6). -/
def replyOff : Nat := 5

/-- The address of LED quadrant `i`: front-left, rear-left, rear-right, front-right for 0 to 3
(30_encoding.md R60). -/
def addrLed (i : Nat) : Byte := addrLedFrontLeft + BitVec.ofNat 8 i

/-- `clamp(v, lo, hi)` (00_scope.md R8, 41_arithmetic.md R102). -/
def clamp (v lo hi : Int) : Int := if v < lo then lo else if hi < v then hi else v

/-- HEIGHT's operand after the port (30_encoding.md R57). -/
def portHeight (h : Int) : Int := clamp h (-20) 20
/-- LEAN's operand after the port (30_encoding.md R57). -/
def portLean (a : Int) : Int := clamp a (-100) 100
/-- MOVE's speed after the port (30_encoding.md R57). -/
def portMove (s : Int) : Int := clamp s 0 100
/-- ROTATE's speed after the port (30_encoding.md R57). -/
def portRotate (s : Int) : Int := clamp s (-100) 100
/-- SETSPD's operand after the port (30_encoding.md R57). -/
def portSetspd (p : Int) : Int := clamp p 0 100

/-- `remap100(v)`, domain -100..100; `/` is the floor division `div` for a positive divisor
(41_arithmetic.md R93). -/
def remap100 (v : Int) : Int := ((v + 100) * 51 + 20) / 40

/-- `remap20(h)`, domain -20..20 (41_arithmetic.md R94). -/
def remap20 (h : Int) : Int := ((h + 20) * 51 + 4) / 8

/-- The greatest `r` with `r ≤ k` and `r * r ≤ n`. -/
def isqrtUpTo (n : Nat) : Nat → Nat
  | 0 => 0
  | k + 1 => if (k + 1) * (k + 1) ≤ n then k + 1 else isqrtUpTo n k

/-- `isqrt(n)`, the greatest `r` with `r * r ≤ n` (00_scope.md R8). -/
def isqrt (n : Nat) : Nat := isqrtUpTo n n

/-- `rsqrt(n)`, the integer nearest to the square root (41_arithmetic.md R97). -/
def rsqrt (n : Nat) : Nat := if isqrt n < n - isqrt n * isqrt n then isqrt n + 1 else isqrt n

/-- `fwd(s)`, the forward-speed transform, `s` in 0..100 (41_arithmetic.md R98). -/
def fwd (s : Int) : Int := -(rsqrt s.toNat : Int)

/-- `s XOR 2` on the unsigned binary form (41_arithmetic.md R99). -/
def xor2 (s : Int) : Int := ((s.toNat ^^^ 2 : Nat) : Int)

/-- `bwd(s)`, the backward-speed transform, `s` in 0..100 (41_arithmetic.md R100). -/
def bwd (s : Int) : Int := min (xor2 s) 100

/-- MOVE's speed after its transform (43_motion_posture.md R115). -/
def moveSpeed (dir : MoveDir) (s : Int) : Int :=
  match dir with
  | .forward => fwd s
  | .backward => bwd s

/-- ROTATE's speed after the negation of the Clockwise direction (43_motion_posture.md R118). -/
def rotateSpeed (dir : RotDir) (s : Int) : Int :=
  match dir with
  | .clockwise => -s
  | .counterClockwise => s

/-- A device byte as a frame carries it (30_encoding.md R59); in-domain remaps are in 0..255
(41_arithmetic.md R95). -/
def deviceByte (x : Int) : Byte := BitVec.ofInt 8 x

/-- The red byte, `color[23:16]` (20_memory.md R27). -/
def red (color : BitVec 24) : Byte := color.extractLsb' 16 8
/-- The green byte, `color[15:8]` (20_memory.md R27). -/
def green (color : BitVec 24) : Byte := color.extractLsb' 8 8
/-- The blue byte, `color[7:0]` (20_memory.md R27). -/
def blue (color : BitVec 24) : Byte := color.extractLsb' 0 8

end Sys2Proof.Machine
end

