-- ==== Sys2Proof/Machine/State.lean ====
section
/-! DEFINITION. The state: everything 10_state.md gives the block, the two streams of its environment,
and the model's own result field; with the state after reset and the ways a step can stop. -/

namespace Sys2Proof.Machine

/-- What the sequencer still has to do for the command in progress (10_state.md R17 `todo`). -/
inductive Action where
  /-- Emit `TX(b)`. -/
  | tx (b : Byte)
  /-- Emit `WAIT(ms)` and wait through the delay. -/
  | wait (ms : Nat)
  /-- Run `RECEIVE_ONE` (40_frame_codec.md R78). -/
  | receive
  /-- The status read has returned the byte `st`; INIT now compares it (42_system_commands.md R105). -/
  | compareStatus (st : Byte)
  deriving DecidableEq, Repr

/-- The state of the model. -/
structure State where
  /-- The one register, a percentage (10_state.md R13). -/
  cruise : Nat
  /-- Whether a command is in progress (10_state.md R12, R17). -/
  busy : Bool
  /-- The accepted command with its operands (10_state.md R17, 20_memory.md R44). -/
  cmd : Option Instr
  /-- What is left of the command in progress, in order (10_state.md R17). -/
  todo : List Action
  /-- Time left of a running `WAIT`, in milliseconds (10_state.md R17). -/
  settle : Nat
  /-- How many of the 9 reply bytes a running `RECEIVE_ONE` has taken (10_state.md R17). -/
  rxcount : Nat
  /-- The events emitted since reset, oldest first (00_scope.md R8, 70_reset_and_hazards.md R174). -/
  trace : List Event
  /-- Environment: the bytes the serial transport holds for the block, oldest first (10_state.md R19). -/
  rx : List Byte
  /-- Environment: what the host presents, in order; the head waits at the port (10_state.md R11, R12). -/
  pending : List Offer
  /-- The model's own: the frame the last codec encoder run by itself returned (40_frame_codec.md R72 to
  R75; log entry 4). -/
  built : Option Frame
  deriving DecidableEq, Repr

/-- Reasons for a fault: there are none, "the block raises no synchronous exception"
(60_exceptions.md R140), so the type has no constructor. -/
inductive Fault where
  deriving DecidableEq, Repr

/-- Reasons for a refusal. -/
inductive Refusal where
  /-- Raised by `exec` for an instruction that has no meaning yet: none in this model. Safe. -/
  | notModelled (mnemonic : String)
  /-- Raised by `step` for a reserved command word, which "a model refuses" (30_encoding.md R61). Safe. -/
  | reservedWord (w : CommandWord)
  /-- Raised by `step` for an offered byte sequence that no codec encoder builds (log entry 4). Safe. -/
  | notAFrame (bytes : List Byte)
  /-- Raised by `State.assertReset` for a reset while a command runs: "a model gives reset a meaning only
  from the idle state and refuses it elsewhere" (70_reset_and_hazards.md R161). Safe. -/
  | resetWhileBusy
  deriving DecidableEq, Repr

/-- The outcomes of this machine's step. -/
abbrev Result := Host.Outcome State Fault Refusal

/-- The state after reset (10_state.md section 9, 70_reset_and_hazards.md R160). The spec gives no reset
value for what the transport holds or for what the host presents: empty here, log entries 2 and 3. -/
def State.reset : State where
  cruise := 50
  busy := false
  cmd := none
  todo := []
  settle := 0
  rxcount := 0
  trace := []
  rx := []
  pending := []
  built := none

end Sys2Proof.Machine
end

