-- ==== Sys2Proof/Machine/Ops.lean ====
section
/-! DEFINITION. The shared operations: the codec's transmit and receive, the transactions, the sequencer,
acceptance of a command, and what the environment can do to the block. There is no operation that takes
or returns from an exception: the block has none (60_exceptions.md R140, R144, R146). -/

namespace Sys2Proof.Machine

/-- `TRANSMIT(f)`: the frame's bytes in order, then the settle delay (40_frame_codec.md R76, R77). -/
def transmit (f : Frame) : List Action := f.map Action.tx ++ [Action.wait settleMs]

/-- `WRITE1(a, d)` (40_frame_codec.md R81). -/
def write1 (a d : Byte) : List Action := transmit (encWriteFrame a d)

/-- `WRITE3(a, d0, d1, d2)` (40_frame_codec.md R82). -/
def write3 (a d0 d1 d2 : Byte) : List Action := transmit (encWrite3Frame a d0 d1 d2)

/-- `READ1(a)`: the read frame asking for one byte, its settle delay, then `RECEIVE_ONE`
(40_frame_codec.md R83). -/
def read1 (a : Byte) : List Action := transmit (encReadFrame a 1) ++ [Action.receive]

/-- What INIT does once the status read has returned `st` (42_system_commands.md R105). -/
def afterStatus (st : Byte) : List Action :=
  if statusActive st then [] else write1 addrInit initData ++ [Action.wait initMs]

/-- Append an event to the trace: `emit e` (00_scope.md R8). -/
def emit (e : Event) (s : State) : State := { s with trace := s.trace ++ [e] }

/-- The returned byte of a reply: the one at offset 5 (40_frame_codec.md R78). -/
def replyByte (reply : List Byte) : Byte := reply.getD replyOff 0

/-- One enabled move of a `RECEIVE_ONE` that stands before `rest`: with fewer than 9 bytes in the
transport nothing moves (60_exceptions.md R145); else the next 9 are taken, whatever they are, with no
verification (40_frame_codec.md R78, R79, 20_memory.md R32). -/
def receiveOne (rest : List Action) (s : State) : State :=
  if s.rx.length < replyLen then s
  else
    { s with
      trace := s.trace ++ [.rx (s.rx.take replyLen)]
      rx := s.rx.drop replyLen
      rxcount := replyLen
      todo := .compareStatus (replyByte (s.rx.take replyLen)) :: rest }

/-- The sequencer at rest: no command in progress (10_state.md R17, the reset values). -/
def State.atRest (s : State) : State :=
  { s with busy := false, cmd := none, todo := [], settle := 0, rxcount := 0 }

/-- One move of the sequencer at the head of `todo`: at most one event. A command whose list is used up
is complete, and the block idle again (10_state.md R12). -/
def perform (s : State) : State :=
  match s.todo with
  | [] => s.atRest
  | .tx b :: rest => emit (.tx b) { s with todo := rest }
  | .wait n :: rest => emit (.wait n) { s with todo := rest, settle := n }
  | .receive :: rest => receiveOne rest s
  | .compareStatus st :: rest => { s with todo := afterStatus st ++ rest, rxcount := 0 }

/-- One move of the sequencer. An idle block does not move; a running delay ends before anything else
happens (20_memory.md R39; there is no clock, so the delay ends in one move, log entry 7). -/
def tick (s : State) : State :=
  if s.busy then
    if s.settle = 0 then perform s else { s with settle := 0 }
  else s

/-- `n` moves of the sequencer. -/
def ticks : Nat → State → State
  | 0, s => s
  | n + 1, s => ticks n (tick s)

/-- A bound on the moves an action can cause: a delay is one event and its end; a received reply is
compared and can add INIT's trigger write, 11 actions and 13 moves. -/
def moves : Action → Nat
  | .tx _ => 1
  | .wait _ => 2
  | .receive => 15
  | .compareStatus _ => 14

/-- A bound on the moves until the command in progress is complete or waits for receive bytes: a running
delay's end, the actions, the completion. -/
def movesLeft (s : State) : Nat := 2 + (s.todo.map moves).sum

/-- Run the command in progress until it is complete or waits for receive bytes. A whole command may be
one atomic step, if it can fail to complete for want of receive bytes (10_state.md R18). -/
def runOn (s : State) : State := ticks (movesLeft s) s

/-- Accept a command: latch it and its event list (10_state.md R12, R17, 20_memory.md R44). -/
def accept (i : Instr) (todo : List Action) (s : State) : State :=
  { s with busy := true, cmd := some i, todo := todo, settle := 0, rxcount := 0 }

/-- Run `f` if the block is idle; while it is busy it accepts nothing, and what is presented waits
(10_state.md R12). -/
def whenIdle (f : State → State) (s : State) : Result :=
  .next (if s.busy then s else f s)

/-- The shared shape of a command that emits events: accept it and run it (10_state.md R12, R18). -/
def runCommand (i : Instr) (todo : List Action) (s : State) : Result :=
  whenIdle (fun s => runOn (accept i todo s)) s

/-- The shared shape of a codec encoder run by itself: it returns a frame, emits nothing and changes
nothing else (40_frame_codec.md R75, R86). -/
def runEncoder (f : Frame) (s : State) : Result :=
  whenIdle (fun s => { s with built := some f }) s

/-- A decoder's rejection as a refusal of the step (30_encoding.md R61). -/
def refuse : Reject → Refusal
  | .reservedWord w => .reservedWord w
  | .notAFrame bytes => .notAFrame bytes

/-- Take what stands at the port, if anything does (10_state.md R11, R20). -/
def fetch (s : State) : Option (Offer × State) :=
  match s.pending with
  | [] => none
  | o :: rest => some (o, { s with pending := rest })

/-- Environment: the host presents one more command, after those it already presents (10_state.md R20). -/
def State.present (s : State) (o : Offer) : State := { s with pending := s.pending ++ [o] }

/-- Environment: bytes arrive at the serial transport, which holds them (10_state.md R19). -/
def State.supplyRx (s : State) (bytes : List Byte) : State := { s with rx := s.rx ++ bytes }

/-- Environment: reset is asserted. From idle it gives the reset state, keeping what the transport and
the host hold (70_reset_and_hazards.md R160, R162); while a command runs it is refused (R161). -/
def State.assertReset (s : State) : Result :=
  if s.busy then .refused .resetWhileBusy
  else .next { State.reset with rx := s.rx, pending := s.pending }

end Sys2Proof.Machine
end

