-- ==== Sys2Proof/Machine/Encoders.lean ====
section
/-! DEFINITION. The codec encoders run by themselves: pure functions that return a frame
(40_frame_codec.md R72 to R75; log entry 4). -/

namespace Sys2Proof.Machine

/-- `ENC_WRITE(a, d)` (40_frame_codec.md R72). -/
def execEncWrite (a d : Byte) (s : State) : Result :=
  runEncoder (encWriteFrame a d) s

/-- `ENC_WRITE3(a, d0, d1, d2)` (40_frame_codec.md R73). -/
def execEncWrite3 (a d0 d1 d2 : Byte) (s : State) : Result :=
  runEncoder (encWrite3Frame a d0 d1 d2) s

/-- `ENC_READ(a, n)` (40_frame_codec.md R74). -/
def execEncRead (a n : Byte) (s : State) : Result :=
  runEncoder (encReadFrame a n) s

end Sys2Proof.Machine
end

