-- ==== Sys2Proof/Machine/Led.lean ====
section
/-! DEFINITION. The LED colour command (44_led_color.md). -/

namespace Sys2Proof.Machine

/-- WRITE3 of the colour to quadrant `i`, if its mask bit is set (44_led_color.md R131). -/
def quadrantActions (mask : BitVec 4) (color : BitVec 24) (i : Nat) : List Action :=
  if quadrantSelected mask i then write3 (addrLed i) (red color) (green color) (blue color) else []

/-- `LED mask, color`: the selected quadrants in ascending address order (44_led_color.md R131). -/
def execLed (mask : BitVec 4) (color : BitVec 24) (s : State) : Result :=
  runCommand (.led mask color) ([0, 1, 2, 3].flatMap (quadrantActions mask color)) s

end Sys2Proof.Machine
end

