-- ==== Sys2Proof/Machine/Motion.lean ====
section
/-! DEFINITION. The motion and posture commands (43_motion_posture.md). -/

namespace Sys2Proof.Machine

/-- WRITE1 of a translation speed (43_motion_posture.md R115). -/
def moveActions (dir : MoveDir) (s : Int) : List Action :=
  write1 addrSpeed (deviceByte (remap100 (moveSpeed dir s)))

/-- WRITE1 of a rotation speed (43_motion_posture.md R118). -/
def rotateActions (dir : RotDir) (s : Int) : List Action :=
  write1 addrRot (deviceByte (remap100 (rotateSpeed dir s)))

/-- `HEIGHT h`: WRITE1(0x35, remap20(h)) (43_motion_posture.md R113). -/
def execHeight (h : Int) (s : State) : Result :=
  runCommand (.height h) (write1 addrHeight (deviceByte (remap20 (portHeight h)))) s

/-- `LEAN a`: WRITE1(0x36, remap100(a)) (43_motion_posture.md R114). -/
def execLean (a : Int) (s : State) : Result :=
  runCommand (.lean a) (write1 addrLean (deviceByte (remap100 (portLean a)))) s

/-- `MOVE dir, s` (43_motion_posture.md R115). -/
def execMove (dir : MoveDir) (spd : Int) (s : State) : Result :=
  runCommand (.move dir spd) (moveActions dir (portMove spd)) s

/-- `ROTATE dir, s` (43_motion_posture.md R118). -/
def execRotate (dir : RotDir) (spd : Int) (s : State) : Result :=
  runCommand (.rotate dir spd) (rotateActions dir (portRotate spd)) s

/-- `STOP`: the byte of zero to 0x30, then to 0x32 (43_motion_posture.md R119). -/
def execStop (s : State) : Result :=
  runCommand .stop
    (write1 addrSpeed (deviceByte (remap100 0)) ++ write1 addrRot (deviceByte (remap100 0))) s

/-- `RIDE dir`: `rotate(Clockwise, 0)`, then MOVE with CRUISE, read once at the start
(43_motion_posture.md R121, 20_memory.md R44). -/
def execRide (dir : MoveDir) (s : State) : Result :=
  runCommand (.ride dir) (rotateActions .clockwise 0 ++ moveActions dir s.cruise) s

/-- `TURN dir`: `rotate(Clockwise, 0)`, then ROTATE with CRUISE, read once at the start
(43_motion_posture.md R122, 92_eei_decisions.md D12, log entry 11). -/
def execTurn (dir : RotDir) (s : State) : Result :=
  runCommand (.turn dir) (rotateActions .clockwise 0 ++ rotateActions dir s.cruise) s

end Sys2Proof.Machine
end

