-- ==== Sys2Proof/Machine/System.lean ====
section
/-! DEFINITION. The system commands INIT and SETSPD (42_system_commands.md). -/

namespace Sys2Proof.Machine

/-- `INIT`: READ1(0x02), whose status byte decides what follows (42_system_commands.md R105; the
continuation is `afterStatus`). It keeps no record of having run (R106). -/
def execInit (s : State) : Result :=
  runCommand .init (read1 addrStatus) s

/-- `SETSPD p`: CRUISE <- clamp(p, 0, 100), with no event (42_system_commands.md R107). -/
def execSetspd (p : Int) (s : State) : Result :=
  whenIdle (fun s => { s with cruise := (portSetspd p).toNat }) s

end Sys2Proof.Machine
end

