-- ==== Sys2Proof/Machine/Dispatch.lean ====
section
/-! DEFINITION. One arm per instruction. -/

namespace Sys2Proof.Machine

def exec (i : Instr) (s : State) : Host.Outcome State Fault Refusal :=
  match i with
  | .init => Sys2Proof.Machine.execInit s
  | .height h => Sys2Proof.Machine.execHeight h s
  | .lean a => Sys2Proof.Machine.execLean a s
  | .move dir spd => Sys2Proof.Machine.execMove dir spd s
  | .rotate dir spd => Sys2Proof.Machine.execRotate dir spd s
  | .stop => Sys2Proof.Machine.execStop s
  | .led mask color => Sys2Proof.Machine.execLed mask color s
  | .setspd p => Sys2Proof.Machine.execSetspd p s
  | .turn dir => Sys2Proof.Machine.execTurn dir s
  | .ride dir => Sys2Proof.Machine.execRide dir s
  | .encWrite a d => Sys2Proof.Machine.execEncWrite a d s
  | .encWrite3 a d0 d1 d2 => Sys2Proof.Machine.execEncWrite3 a d0 d1 d2 s
  | .encRead a n => Sys2Proof.Machine.execEncRead a n s

end Sys2Proof.Machine
end

