-- ==== Sys2Proof/Machine/Step.lean ====
section
/-! DEFINITION. One step: a command that waits for receive bytes goes on if it can; otherwise the command
at the port is accepted and run; with nothing at the port the idle block stays as it is. -/

namespace Sys2Proof.Machine

/-- One step (10_state.md R11, R12, R18; 60_exceptions.md R145). -/
def step (s : State) : Host.Outcome State Fault Refusal :=
  if s.busy then .next (runOn s)
  else
    match fetch s with
    | none => .next s
    | some (o, s') =>
      match decode o with
      | .ok i => exec i s'
      | .error r => .refused (refuse r)

/-- `s` with an opcode-table row's instruction at the head of the port, and the sequencer at rest, so
that the next step accepts it (log entry 2). -/
def State.withFetchWord (s : State) (nbits w : Nat) : State :=
  { s.atRest with pending := tableOffer nbits w :: s.pending }

end Sys2Proof.Machine
end

