-- ==== Sys2Proof/Config.lean ====
section
/-! DEFINITION. What the spec leaves open as a parameter of the model. The constants the source fixes
(00_scope.md R6) are no configuration and stand where they are used (Machine/Codec.lean, Machine/Operands.lean). -/

namespace Sys2Proof

/-- Whether leaning left has the positive sign: the open parameter `LEAN_LEFT_SIGN` in (-1, +1)
(30_encoding.md R64, 92_eei_decisions.md D15). It has no body, so a statement that mentions it holds
for both signs (log entry 14). -/
opaque Config.leanLeftPositive : Bool

/-- `LEAN_LEFT_SIGN` (00_scope.md R7, 92_eei_decisions.md D15). -/
def Config.leanLeftSign : Int :=
  if Config.leanLeftPositive then 1 else -1

end Sys2Proof
end

