-- ==== Sys2Proof/Machine/Pseudo.lean ====
section
/-! DEFINITION. The four pseudo-commands, which the host expands to one command each (30_encoding.md R64,
43_motion_posture.md R123). They have no opcode. -/

namespace Sys2Proof.Machine

/-- The pseudo-commands with their operand ranges, 0..20 and 0..45 (30_encoding.md R64). -/
inductive Pseudo where
  | stretch (x : Fin 21)
  | shrink (x : Fin 21)
  | leanL (d : Fin 46)
  | leanR (d : Fin 46)
  deriving DecidableEq, Repr

/-- The one command a pseudo-command expands to (30_encoding.md R64; 92_eei_decisions.md D14, D15). -/
def expand : Pseudo → Instr
  | .stretch x => .height x.val
  | .shrink x => .height (-x.val)
  | .leanL d => .lean (Config.leanLeftSign * 2 * d.val)
  | .leanR d => .lean (-Config.leanLeftSign * 2 * d.val)

end Sys2Proof.Machine
end

