-- ==== Sys2Proof/Machine/Assembly.lean ====
section
/-! DEFINITION. The assembler text of test programs, one command a line (30_encoding.md R63), read into
the command or, for a pseudo-command, into its expansion (R64). It is the host's: no step reads text. -/

namespace Sys2Proof.Machine

/-- The words of a line: what stands between spaces and commas. `cur` is the word being read, reversed. -/
def splitWords : List Char → List Char → List String
  | cur, [] => if cur = [] then [] else [String.ofList cur.reverse]
  | cur, c :: cs =>
    if c = ' ' ∨ c = ',' then
      if cur = [] then splitWords [] cs else String.ofList cur.reverse :: splitWords [] cs
    else splitWords (c :: cur) cs

/-- The value of a digit, decimal or hexadecimal. -/
def digitValue (c : Char) : Option Nat :=
  if '0' ≤ c ∧ c ≤ '9' then some (c.toNat - 48)
  else if 'A' ≤ c ∧ c ≤ 'F' then some (c.toNat - 55)
  else if 'a' ≤ c ∧ c ≤ 'f' then some (c.toNat - 87)
  else none

/-- Digits in a base, after the value `acc` of those already read. -/
def digitsFrom (base acc : Nat) : List Char → Option Nat
  | [] => some acc
  | c :: cs =>
    match digitValue c with
    | none => none
    | some d => if d < base then digitsFrom base (acc * base + d) cs else none

/-- A number of one digit or more in a base. -/
def digits (base : Nat) : List Char → Option Nat
  | [] => none
  | cs => digitsFrom base 0 cs

/-- A decimal signed integer (30_encoding.md R63). -/
def readInt (t : String) : Option Int :=
  match t.toList with
  | '-' :: cs => (digits 10 cs).map (fun n => -(n : Int))
  | cs => (digits 10 cs).map (fun n => (n : Int))

/-- A mask: four binary digits or one hexadecimal digit (30_encoding.md R63). -/
def readMask (t : String) : Option (BitVec 4) :=
  match t.toList with
  | ['0', 'b', a, b, c, d] => (digits 2 [a, b, c, d]).map (BitVec.ofNat 4)
  | ['0', 'x', a] => (digits 16 [a]).map (BitVec.ofNat 4)
  | _ => none

/-- A colour of six hexadecimal digits (30_encoding.md R63). -/
def readColor (t : String) : Option (BitVec 24) :=
  match t.toList with
  | ['0', 'x', a, b, c, d, e, f] => (digits 16 [a, b, c, d, e, f]).map (BitVec.ofNat 24)
  | _ => none

/-- `FWD` or `BWD`. -/
def readMoveDir (t : String) : Option MoveDir :=
  if t = "FWD" then some .forward else if t = "BWD" then some .backward else none

/-- `CW` or `CCW`. -/
def readRotDir (t : String) : Option RotDir :=
  if t = "CW" then some .clockwise else if t = "CCW" then some .counterClockwise else none

/-- A pseudo-command's operand, if it is in its range (30_encoding.md R64). -/
def readFin (bound : Nat) (t : String) : Option (Fin bound) :=
  match digits 10 t.toList with
  | none => none
  | some n => if h : n < bound then some ⟨n, h⟩ else none

/-- A line of no operand. -/
def assemble0 (m : String) : Option Instr :=
  if m = "INIT" then some .init
  else if m = "STOP" then some .stop
  else none

/-- A line of one operand. -/
def assemble1 (m x : String) : Option Instr :=
  if m = "HEIGHT" then (readInt x).map .height
  else if m = "LEAN" then (readInt x).map .lean
  else if m = "SETSPD" then (readInt x).map .setspd
  else if m = "TURN" then (readRotDir x).map .turn
  else if m = "RIDE" then (readMoveDir x).map .ride
  else if m = "STRETCH" then (readFin 21 x).map (fun n => expand (.stretch n))
  else if m = "SHRINK" then (readFin 21 x).map (fun n => expand (.shrink n))
  else if m = "LEANL" then (readFin 46 x).map (fun n => expand (.leanL n))
  else if m = "LEANR" then (readFin 46 x).map (fun n => expand (.leanR n))
  else none

/-- A line of two operands. -/
def assemble2 (m x y : String) : Option Instr :=
  if m = "MOVE" then (readMoveDir x).bind (fun d => (readInt y).map (.move d))
  else if m = "ROTATE" then (readRotDir x).bind (fun d => (readInt y).map (.rotate d))
  else if m = "LED" then (readMask x).bind (fun k => (readColor y).map (.led k))
  else none

/-- The command a line of assembler text stands for, if it is one whose operands a command word can carry. -/
def assemble (line : String) : Option Instr :=
  let read := match splitWords [] line.toList with
    | [m] => assemble0 m
    | [m, x] => assemble1 m x
    | [m, x, y] => assemble2 m x y
    | _ => none
  read.filter Instr.isWellFormed

end Sys2Proof.Machine
end

