-- ==== Sys2Proof/Safety.lean ====
section
/-! DEFINITION. The terms claims are stated in: an idle, a waiting and a stuck block, the shape of a legal
trace, the invariant, the result of a command by its own rule, and the delay a trace contains. -/

namespace Sys2Proof

open Sys2Proof.Machine

/-- The block is idle: no command latched, no event pending, no delay running, no receive in progress
(70_reset_and_hazards.md R160). -/
abbrev Safety.Idle (s : State) : Prop :=
  s.busy = false ∧ s.cmd = none ∧ s.todo = [] ∧ s.settle = 0 ∧ s.rxcount = 0

/-- The block waits in the `RECEIVE_ONE` of an INIT (60_exceptions.md R145). -/
abbrev Safety.Waiting (s : State) : Prop :=
  s.busy = true ∧ s.cmd = some .init ∧ s.todo = [.receive] ∧ s.settle = 0 ∧ s.rxcount = 0

/-- The block is stuck: it waits for receive bytes that the transport does not hold
(00_scope.md R9, 60_exceptions.md R145). -/
abbrev Safety.Stuck (s : State) : Prop := Safety.Waiting s ∧ s.rx.length < 9

/-- The events of one transmitted frame: its bytes, then the settle delay (40_frame_codec.md R76). -/
def Safety.sent (f : Frame) : List Event := f.map Event.tx ++ [.wait 100]

/-- The pieces a legal trace is made of. -/
inductive Safety.Transfer where
  /-- A one-byte write. -/
  | write1 (a d : Byte)
  /-- A three-byte write. -/
  | write3 (a d0 d1 d2 : Byte)
  /-- A read request for one byte. -/
  | request (a : Byte)
  /-- The bytes a `RECEIVE_ONE` took. -/
  | reply (bytes : List Byte)
  /-- INIT's extra delay after its trigger write. -/
  | initPause
  deriving DecidableEq, Repr

/-- The events of a piece. -/
def Safety.Transfer.events : Safety.Transfer → List Event
  | .write1 a d => Safety.sent (encWriteFrame a d)
  | .write3 a d0 d1 d2 => Safety.sent (encWrite3Frame a d0 d1 d2)
  | .request a => Safety.sent (encReadFrame a 1)
  | .reply bytes => [.rx bytes]
  | .initPause => [.wait 1000]

/-- The accesses of the table of 20_memory.md R33: address and width of every write and read; a reply
has nine bytes. -/
def Safety.Transfer.permitted : Safety.Transfer → Bool
  | .write1 a d => a == 0x30 || a == 0x32 || a == 0x35 || a == 0x36 || (a == 0x3E && d == 0xFF)
  | .write3 a _ _ _ => a == 0x69 || a == 0x6A || a == 0x6B || a == 0x6C
  | .request a => a == 0x02
  | .reply bytes => bytes.length == 9
  | .initPause => true

/-- A legal trace: whole well-formed frames to the ten addresses, each followed at once by its settle
delay, and between them only nine-byte replies and INIT's delay (20_memory.md R33 to R35, R39). -/
def Safety.LegalTrace (tr : List Event) : Prop :=
  ∃ ts : List Safety.Transfer, (∀ t ∈ ts, t.permitted = true) ∧ tr = ts.flatMap Safety.Transfer.events

/-- The invariant of the model between steps: CRUISE is legal (10_state.md R14), the block is idle or
waits in INIT's read with the read request just sent, and the trace is legal. -/
def Safety.Inv (s : State) : Prop :=
  s.cruise ≤ 100 ∧ (Safety.Idle s ∨ Safety.Waiting s) ∧ Safety.LegalTrace s.trace ∧
    (s.busy = true → ∃ tr, s.trace = tr ++ Safety.sent (encReadFrame 0x02 1))

/-- The events INIT emits for the nine reply bytes `reply` (42_system_commands.md R105). -/
def Safety.initEvents (reply : List Byte) : List Event :=
  Safety.sent (encReadFrame 0x02 1) ++ [.rx reply] ++
    (if reply.getD 5 0 = 0x00 then [] else Safety.sent (encWriteFrame 0x3E 0xFF) ++ [.wait 1000])

/-- The events of the LED command: one frame for each set mask bit, in address order (44_led_color.md R131). -/
def Safety.ledEvents (mask : BitVec 4) (color : BitVec 24) : List Event :=
  (if mask.getLsbD 0 then Safety.sent (encWrite3Frame 0x69 (red color) (green color) (blue color)) else []) ++
  (if mask.getLsbD 1 then Safety.sent (encWrite3Frame 0x6A (red color) (green color) (blue color)) else []) ++
  (if mask.getLsbD 2 then Safety.sent (encWrite3Frame 0x6B (red color) (green color) (blue color)) else []) ++
  (if mask.getLsbD 3 then Safety.sent (encWrite3Frame 0x6C (red color) (green color) (blue color)) else [])

/-- The event sequence of an instruction that does not read the receive stream, from the value of CRUISE
at its start; none for INIT, whose events depend on the reply (20_memory.md R38). -/
def Safety.events (cruise : Nat) : Instr → Option (List Event)
  | .init => none
  | .height h => some (Safety.sent (encWriteFrame 0x35 (deviceByte (remap20 (clamp h (-20) 20)))))
  | .lean a => some (Safety.sent (encWriteFrame 0x36 (deviceByte (remap100 (clamp a (-100) 100)))))
  | .move .forward v => some (Safety.sent (encWriteFrame 0x30 (deviceByte (remap100 (fwd (clamp v 0 100))))))
  | .move .backward v => some (Safety.sent (encWriteFrame 0x30 (deviceByte (remap100 (bwd (clamp v 0 100))))))
  | .rotate .clockwise v =>
    some (Safety.sent (encWriteFrame 0x32 (deviceByte (remap100 (-(clamp v (-100) 100))))))
  | .rotate .counterClockwise v =>
    some (Safety.sent (encWriteFrame 0x32 (deviceByte (remap100 (clamp v (-100) 100)))))
  | .stop => some (Safety.sent (encWriteFrame 0x30 0x80) ++ Safety.sent (encWriteFrame 0x32 0x80))
  | .led mask color => some (Safety.ledEvents mask color)
  | .setspd _ => some []
  | .turn .clockwise => some (Safety.sent (encWriteFrame 0x32 0x80) ++
      Safety.sent (encWriteFrame 0x32 (deviceByte (remap100 (-(cruise : Int))))))
  | .turn .counterClockwise => some (Safety.sent (encWriteFrame 0x32 0x80) ++
      Safety.sent (encWriteFrame 0x32 (deviceByte (remap100 cruise))))
  | .ride .forward => some (Safety.sent (encWriteFrame 0x32 0x80) ++
      Safety.sent (encWriteFrame 0x30 (deviceByte (remap100 (fwd cruise)))))
  | .ride .backward => some (Safety.sent (encWriteFrame 0x32 0x80) ++
      Safety.sent (encWriteFrame 0x30 (deviceByte (remap100 (bwd cruise)))))
  | .encWrite _ _ => some []
  | .encWrite3 _ _ _ _ => some []
  | .encRead _ _ => some []

/-- CRUISE after an instruction (42_system_commands.md R107, R108). -/
def Safety.cruiseAfter (cruise : Nat) : Instr → Nat
  | .setspd p => (clamp p 0 100).toNat
  | _ => cruise

/-- What a run of instructions from CRUISE `cruise` and receive stream `rx` emits, with CRUISE and the
stream after it: the concatenation of each command's own events in the order of issue (20_memory.md R38);
none when an INIT finds fewer than nine bytes, since that run does not end (70_reset_and_hazards.md R174). -/
def Safety.replay : List Instr → Nat → List Byte → Option (List Event × Nat × List Byte)
  | [], c, rx => some ([], c, rx)
  | i :: is, c, rx =>
    match Safety.events c i with
    | some evs => (Safety.replay is (Safety.cruiseAfter c i) rx).map (fun r => (evs ++ r.1, r.2))
    | none =>
      if rx.length < 9 then none
      else (Safety.replay is c (rx.drop 9)).map (fun r => (Safety.initEvents (rx.take 9) ++ r.1, r.2))

/-- The `WAIT` events a trace contains, as their lengths in milliseconds (70_reset_and_hazards.md R172). -/
def Safety.waits : List Event → List Nat
  | [] => []
  | .wait ms :: es => ms :: Safety.waits es
  | .tx _ :: es => Safety.waits es
  | .rx _ :: es => Safety.waits es

/-- The sum of the delays a trace contains, in milliseconds (70_reset_and_hazards.md R172). -/
def Safety.delay (es : List Event) : Nat := (Safety.waits es).sum

/-- `exec` of `i` in `s` answers a next state, and the events it emits contain the `WAIT` events `ws`,
whose sum is `ms` milliseconds. -/
def Safety.ExecWaits (i : Instr) (s : State) (ws : List Nat) (ms : Nat) : Prop :=
  ∃ t evs, exec i s = .next t ∧ t.trace = s.trace ++ evs ∧ Safety.waits evs = ws ∧ Safety.delay evs = ms

/-- An event with the content of a reply left out: what is left of it is that nine bytes were taken. -/
def Safety.hideReply : Event → Event
  | .tx b => .tx b
  | .wait ms => .wait ms
  | .rx _ => .rx []

/-- The events that a list of sequencer actions still has to emit, if it has no receive left to make. -/
def Safety.remaining : List Action → List Event
  | [] => []
  | .tx b :: l => .tx b :: Safety.remaining l
  | .wait ms :: l => .wait ms :: Safety.remaining l
  | .receive :: l => Safety.remaining l
  | .compareStatus _ :: l => Safety.remaining l

/-- A sequencer action that only emits an event; a delay of 0 ms is none (10_state.md R23). -/
def Safety.emitsOnly : Action → Bool
  | .tx _ => true
  | .wait ms => ms != 0
  | .receive => false
  | .compareStatus _ => false

/-- The device byte of a motion or posture command: the byte whose value is the remapped number
(30_encoding.md R59). -/
def Safety.IsByteOf (b : Byte) (x : Int) : Prop := (b.toNat : Int) = x

end Sys2Proof
end

