-- ==== Sys2Proof/Certificates/Slice0/Obligations.lean ====
section
/-! DEFINITION. The statements for the provers. In every result statement `{ s with … }.atRest` is `s` with
the fields named changed and the sequencer at rest (no command latched, nothing left to do), so each such
equation is the instruction's whole frame: every field it does not name is as before. -/

open Sys2Proof Sys2Proof.Machine

/-! ### Encodings -/

/-- Every well-formed instruction is what its own encoding decodes to. Model of 30_encoding.md sections 1
and 4; the command word is the spec's own decision D10. -/
def Obligations.DecodeOfEncodeIsTheInstruction : Prop :=
  ∀ i : Instr, i.WellFormed → decode (encode i) = .ok i

/-- An offer that decodes has one meaning: the decoded instruction is well formed and encodes to that
offer, bit for bit. 30_encoding.md sections 1 and 4 (D10). -/
def Obligations.EncodeOfDecodeIsTheOffer : Prop :=
  ∀ (o : Offer) (i : Instr), decode o = .ok i → i.WellFormed ∧ encode i = o

/-- Exactly the words of 30_encoding.md section 6 are reserved, said through the fields of section 4:
opcodes above 9, and words with a bit set that must be zero (spec's decisions D10, D11). -/
def Obligations.ReservedWordsAreRejected : Prop :=
  ∀ w : CommandWord,
    decodeWord w = .error (.reservedWord w) ↔
      (w.extractLsb' 28 4).toNat ≥ 10 ∨
      (((w.extractLsb' 28 4).toNat = 0 ∨ (w.extractLsb' 28 4).toNat = 5) ∧ w.extractLsb' 0 28 ≠ 0) ∨
      (((w.extractLsb' 28 4).toNat = 1 ∨ (w.extractLsb' 28 4).toNat = 2 ∨ (w.extractLsb' 28 4).toNat = 7) ∧
        w.extractLsb' 8 20 ≠ 0) ∨
      (((w.extractLsb' 28 4).toNat = 3 ∨ (w.extractLsb' 28 4).toNat = 4) ∧
        (w.extractLsb' 25 3 ≠ 0 ∨ w.extractLsb' 8 16 ≠ 0)) ∨
      (((w.extractLsb' 28 4).toNat = 8 ∨ (w.extractLsb' 28 4).toNat = 9) ∧
        (w.extractLsb' 25 3 ≠ 0 ∨ w.extractLsb' 0 24 ≠ 0))

/-- A few words and frames of 95_test_vectors.md decode to the instructions they stand for. -/
def Obligations.WordsOfTheSpecDecode : Prop :=
  decodeTableWord 32 0x00000000 = some .init ∧
  decodeTableWord 32 0x100000EC = some (.height (-20)) ∧
  decodeTableWord 32 0x200000A6 = some (.lean (-90)) ∧
  decodeTableWord 32 0x31000063 = some (.move .backward 99) ∧
  decodeTableWord 32 0x410000CE = some (.rotate .counterClockwise (-50)) ∧
  decodeTableWord 32 0x68123456 = some (.led 0x8 0x123456) ∧
  decodeTableWord 32 0x32000000 = none ∧
  decode (.codec [0x55, 0x00, 0x09, 0x00, 0x3E, 0xFF, 0xB9, 0x00, 0xAA]) = .ok (.encWrite 0x3E 0xFF) ∧
  decode (.codec [0x55, 0x00, 0x09, 0x02, 0x02, 0x01, 0xF1, 0x00, 0xAA]) = .ok (.encRead 0x02 0x01)

/-- The assembler reads the three example lines of 30_encoding.md section 7 as the instructions whose words
the spec gives there (syntax and words are the spec's decisions D9, D10). -/
def Obligations.AssemblerReadsTheExamples : Prop :=
  (assemble "MOVE FWD, 100").map encode = some (.command 0x30000064) ∧
  (assemble "ROTATE CCW, -50").map encode = some (.command 0x410000CE) ∧
  (assemble "LED 0xF, 0xFF0000").map encode = some (.command 0x6FFF0000)

/-! ### Frames and checksum -/

/-- The checksum generator: its value, the NOT of the sum taken to eight bits, its corner cases, the
largest sums, its example (40_frame_codec.md R70). -/
def Obligations.ChecksumIsNotOfTheSum : Prop :=
  (∀ body : List Byte,
    (checksum body).toNat = 255 - (body.map BitVec.toNat).sum % 256 ∧
    checksum body = ~~~ BitVec.ofNat 8 (body.map BitVec.toNat).sum ∧
    ((body.map BitVec.toNat).sum % 256 = 0 → checksum body = 0xFF) ∧
    ((body.map BitVec.toNat).sum % 256 = 255 → checksum body = 0x00)) ∧
  (∀ frameType a : Byte, ∀ payload : List Byte,
    buildFrame frameType a payload =
      [0x55, 0x00, BitVec.ofNat 8 (8 + payload.length), frameType, a] ++ payload ++
      [checksum ([BitVec.ofNat 8 (8 + payload.length), frameType, a] ++ payload), 0x00, 0xAA]) ∧
  (∀ a n : Byte, (([0x09, 0x02, a, n] : List Byte).map BitVec.toNat).sum ≤ 521) ∧
  (∀ a d0 d1 d2 : Byte, (([0x0B, 0x00, a, d0, d1, d2] : List Byte).map BitVec.toNat).sum ≤ 1031) ∧
  checksum [0x09, 0x00, 0x3E, 0xFF] = 0xB9

/-- Two consequences of the checksum rule, which the spec marks as derived (40_frame_codec.md section 1):
an accumulator of any width of 8 bits or more gives the same byte, and in every frame the sum of the
bytes from the length to the checksum is 255 modulo 256. -/
def Obligations.ChecksumConsequences : Prop :=
  (∀ (n : Nat) (body : List Byte), 8 ≤ n →
    checksum body = (~~~ (body.foldl (fun acc b => acc + b.setWidth n) (0 : BitVec n))).setWidth 8) ∧
  (∀ (frameType a : Byte) (payload : List Byte),
    ((((buildFrame frameType a payload).drop 2).take (payload.length + 4)).map BitVec.toNat).sum % 256 = 255)

/-- `ENC_WRITE`: the nine bytes for every address and data byte, the corner cases, the example
(40_frame_codec.md R72; format F9W of 30_encoding.md R46). -/
def Obligations.EncWriteBuildsF9W : Prop :=
  (∀ a d : Byte,
    encWriteFrame a d =
      [0x55, 0x00, 0x09, 0x00, a, d, BitVec.ofNat 8 (255 - (9 + a.toNat + d.toNat) % 256), 0x00, 0xAA]) ∧
  (encWriteFrame 0x00 0x00).getD 6 0 = 0xF6 ∧
  (encWriteFrame 0xF6 0x00).getD 6 1 = 0x00 ∧
  (encWriteFrame 0xF7 0x00).getD 6 0 = 0xFF ∧
  encWriteFrame 0x3E 0xFF = [0x55, 0x00, 0x09, 0x00, 0x3E, 0xFF, 0xB9, 0x00, 0xAA]

/-- `ENC_WRITE3`: the eleven bytes, the payload in order, a checksum that does not depend on that order,
the all-ones corner case, the example (40_frame_codec.md R73; format F11W of 30_encoding.md R47). -/
def Obligations.EncWrite3BuildsF11W : Prop :=
  (∀ a d0 d1 d2 : Byte,
    encWrite3Frame a d0 d1 d2 =
      [0x55, 0x00, 0x0B, 0x00, a, d0, d1, d2,
        BitVec.ofNat 8 (255 - (11 + a.toNat + d0.toNat + d1.toNat + d2.toNat) % 256), 0x00, 0xAA]) ∧
  (∀ a d0 d1 d2 e0 e1 e2 : Byte, List.Perm [d0, d1, d2] [e0, e1, e2] →
    (encWrite3Frame a d0 d1 d2).getD 8 0 = (encWrite3Frame a e0 e1 e2).getD 8 0) ∧
  (encWrite3Frame 0xFF 0xFF 0xFF 0xFF).getD 8 0 = 0xF8 ∧
  encWrite3Frame 0x69 0xFF 0x00 0x00 = [0x55, 0x00, 0x0B, 0x00, 0x69, 0xFF, 0x00, 0x00, 0x8C, 0x00, 0xAA]

/-- The read request, format F9R (30_encoding.md R48). -/
def Obligations.EncReadBuildsF9R : Prop :=
  ∀ a n : Byte,
    encReadFrame a n =
      [0x55, 0x00, 0x09, 0x02, a, n, BitVec.ofNat 8 (255 - (9 + 2 + a.toNat + n.toNat) % 256), 0x00, 0xAA]

/-- The length field is the byte count of the whole frame, 9 or 11, and the checksum covers it
(30_encoding.md R49). -/
def Obligations.LengthFieldIsTheByteCount : Prop :=
  (∀ a d : Byte,
    (encWriteFrame a d).length = 9 ∧ ((encWriteFrame a d).getD 2 0).toNat = 9 ∧
    (encWriteFrame a d).getD 6 0 = checksum (0x09 :: ((encWriteFrame a d).drop 3).take 3)) ∧
  (∀ a n : Byte,
    (encReadFrame a n).length = 9 ∧ ((encReadFrame a n).getD 2 0).toNat = 9 ∧
    (encReadFrame a n).getD 6 0 = checksum (0x09 :: ((encReadFrame a n).drop 3).take 3)) ∧
  (∀ a d0 d1 d2 : Byte,
    (encWrite3Frame a d0 d1 d2).length = 11 ∧ ((encWrite3Frame a d0 d1 d2).getD 2 0).toNat = 11 ∧
    (encWrite3Frame a d0 d1 d2).getD 8 0 = checksum (0x0B :: ((encWrite3Frame a d0 d1 d2).drop 3).take 5))

/-- The two 16-bit constants stand high byte first at the ends of every frame (20_memory.md R26). -/
def Obligations.HeaderAndTailHighByteFirst : Prop :=
  ∀ (frameType a : Byte) (payload : List Byte),
    (buildFrame frameType a payload).take 2 =
      [(0x5500 : BitVec 16).extractLsb' 8 8, (0x5500 : BitVec 16).extractLsb' 0 8] ∧
    (buildFrame frameType a payload).drop (6 + payload.length) =
      [(0x00AA : BitVec 16).extractLsb' 8 8, (0x00AA : BitVec 16).extractLsb' 0 8] ∧
    (buildFrame frameType a payload).take 2 = [0x55, 0x00] ∧
    (buildFrame frameType a payload).drop (6 + payload.length) = [0x00, 0xAA]

/-- The colour is cut into its three bytes, most significant first, and so stands in an LED frame's
payload (20_memory.md R27). -/
def Obligations.ColourMostSignificantByteFirst : Prop :=
  ∀ (color : BitVec 24) (a : Byte),
    color.toNat = (red color).toNat * 65536 + (green color).toNat * 256 + (blue color).toNat ∧
    ((encWrite3Frame a (red color) (green color) (blue color)).drop 5).take 3 =
      [color.extractLsb' 16 8, color.extractLsb' 8 8, color.extractLsb' 0 8]

/-! ### Arithmetic -/

/-- The clamp: its three cases, idempotent, monotonic (41_arithmetic.md section 5). The last clause, the
bounds of the command port's operand functions, is 30_encoding.md section 5: that the port clamps is the
spec's decision D4, the model's log entry 9 (SETSPD's clamp is the source's own). -/
def Obligations.ClampCases : Prop :=
  (∀ v w lo hi : Int, lo ≤ hi →
    (v < lo → clamp v lo hi = lo) ∧
    (hi < v → clamp v lo hi = hi) ∧
    (lo ≤ v → v ≤ hi → clamp v lo hi = v) ∧
    clamp (clamp v lo hi) lo hi = clamp v lo hi ∧
    (v ≤ w → clamp v lo hi ≤ clamp w lo hi)) ∧
  (∀ x : Int, portHeight x = clamp x (-20) 20 ∧ portLean x = clamp x (-100) 100 ∧ portMove x = clamp x 0 100 ∧
    portRotate x = clamp x (-100) 100 ∧ portSetspd x = clamp x 0 100)

/-- The two instances of the linear remap are the source's rational formula, rounded half up (the rounding
convention is the spec's decision D5; 41_arithmetic.md section 2). -/
def Obligations.RemapsAreTheRoundedLinearMap : Prop :=
  (∀ v : Int, -100 ≤ v → v ≤ 100 →
    remap100 v = ⌊(0 + ((v : ℚ) - (-100)) * (255 - 0) / (100 - (-100))) + 1 / 2⌋) ∧
  (∀ h : Int, -20 ≤ h → h ≤ 20 →
    remap20 h = ⌊(0 + ((h : ℚ) - (-20)) * (255 - 0) / (20 - (-20))) + 1 / 2⌋)

/-- Range, boundaries, strict growth, asymmetry and the byte of zero of the remaps, which the spec marks as
derived (41_arithmetic.md section 2). -/
def Obligations.RemapProperties : Prop :=
  (∀ v : Int, -100 ≤ v → v ≤ 100 → 0 ≤ remap100 v ∧ remap100 v ≤ 255) ∧
  (∀ h : Int, -20 ≤ h → h ≤ 20 → 0 ≤ remap20 h ∧ remap20 h ≤ 255) ∧
  (∀ v : Int, -100 ≤ v → v < 100 → remap100 (v + 1) - remap100 v = 1 ∨ remap100 (v + 1) - remap100 v = 2) ∧
  (∀ h : Int, -20 ≤ h → h < 20 → remap20 (h + 1) - remap20 h = 6 ∨ remap20 (h + 1) - remap20 h = 7) ∧
  remap100 (-100) = 0 ∧ remap100 100 = 255 ∧ remap20 (-20) = 0 ∧ remap20 20 = 255 ∧
  remap100 0 = 128 ∧ remap20 0 = 128 ∧ remap100 (-1) = 126 ∧ remap100 1 = 129

/-- The inputs whose exact image ends in one half, and their bytes under round half up (decision D5);
no other input of the domains has such an image (41_arithmetic.md section 2). -/
def Obligations.RemapHalfCases : Prop :=
  (∀ v : Int, -100 ≤ v → v ≤ 100 →
    ((51 * (v + 100)) % 40 = 20 ↔ v = -80 ∨ v = -40 ∨ v = 0 ∨ v = 40 ∨ v = 80)) ∧
  (∀ h : Int, -20 ≤ h → h ≤ 20 →
    ((51 * (h + 20)) % 8 = 4 ↔ h = -16 ∨ h = -8 ∨ h = 0 ∨ h = 8 ∨ h = 16)) ∧
  [-80, -40, 0, 40, 80].map remap100 = [26, 77, 128, 179, 230] ∧
  [-16, -8, 0, 8, 16].map remap20 = [26, 77, 128, 179, 230]

/-- `rsqrt(n)` is the integer nearest to the square root of `n`, and takes the value `k` from
`k*k - k + 1` to `k*k + k` (41_arithmetic.md section 3, which the spec marks as derived). -/
def Obligations.RsqrtIsTheNearestInteger : Prop :=
  ∀ n : Nat, n ≤ 100 →
    ((rsqrt n : Int) = round (Real.sqrt n)) ∧
    ∀ k : Nat, 1 ≤ k → (rsqrt n = k ↔ k * k - k + 1 ≤ n ∧ n ≤ k * k + k)

/-- The forward transform: minus the rounded square root, its range, its two examples
(41_arithmetic.md R98). -/
def Obligations.ForwardTransform : Prop :=
  (∀ v : Int, 0 ≤ v → v ≤ 100 →
    fwd v = -(round (Real.sqrt v)) ∧ -10 ≤ fwd v ∧ fwd v ≤ 0) ∧
  fwd 0 = 0 ∧ fwd 100 = -10 ∧ remap100 (-10) = 115

/-- The backward transform: XOR 2, capped at 100; the cap acts for 100 alone; 99 gives 97
(41_arithmetic.md R100; conflict C1). -/
def Obligations.BackwardTransform : Prop :=
  (∀ v : Int, 0 ≤ v → v ≤ 100 →
    bwd v = min (((v.toNat ^^^ 2 : Nat) : Int)) 100 ∧ 0 ≤ bwd v ∧ bwd v ≤ 100 ∧
    (v ≠ 100 → bwd v = ((v.toNat ^^^ 2 : Nat) : Int)) ∧ 0 ≤ ((v.toNat ^^^ 2 : Nat) : Int)) ∧
  bwd 100 = 100 ∧ ((100 ^^^ 2 : Nat) = 102) ∧ bwd 99 = 97 ∧ bwd 98 = 96

/-- XOR 2 adds 2 where bit 1 is clear and takes 2 away where it is set (41_arithmetic.md section 4;
decision D24). -/
def Obligations.XorTwoFlipsBitOne : Prop :=
  ∀ v : Int, 0 ≤ v → v ≤ 100 →
    (v % 4 = 0 ∨ v % 4 = 1 → xor2 v = v + 2) ∧ (v % 4 = 2 ∨ v % 4 = 3 → xor2 v = v - 2) ∧
    0 ≤ xor2 v ∧ xor2 v ≤ 102

/-! ### The sequencer -/

/-- `TRANSMIT(f)`: byte by byte in order, with nothing between two bytes, then one `WAIT(100)`; the delay
then runs and what follows the frame is still to do (40_frame_codec.md R76). -/
def Obligations.TransmitEmitsFrameThenSettles : Prop :=
  (∀ (f : Frame) (rest : List Action) (s : State),
    s.busy = true → s.settle = 0 → s.todo = transmit f ++ rest →
    (∀ k, k ≤ f.length → (ticks k s).trace = s.trace ++ (f.take k).map Event.tx) ∧
    ticks (f.length + 1) s =
      { s with trace := s.trace ++ f.map Event.tx ++ [Event.wait 100], todo := rest, settle := 100 }) ∧
  Safety.remaining (transmit (encWriteFrame 0x30 0x80)) =
    [.tx 0x55, .tx 0x00, .tx 0x09, .tx 0x00, .tx 0x30, .tx 0x80, .tx 0x46, .tx 0x00, .tx 0xAA, .wait 100]

/-- `WRITE1` and `WRITE3`: a command that consists of one of them emits the nine or eleven bytes of its
frame and `WAIT(100)`, reads no reply, and is then complete (40_frame_codec.md R81, R82). -/
def Obligations.WriteTransactionsSendOneFrame : Prop :=
  (∀ (a d : Byte) (s : State), s.busy = true → s.settle = 0 → s.todo = write1 a d →
    runOn s = { s with trace := s.trace ++ (encWriteFrame a d).map Event.tx ++ [Event.wait 100] }.atRest ∧
    ((encWriteFrame a d).map Event.tx).length = 9) ∧
  (∀ (a d0 d1 d2 : Byte) (s : State), s.busy = true → s.settle = 0 → s.todo = write3 a d0 d1 d2 →
    runOn s =
      { s with trace := s.trace ++ (encWrite3Frame a d0 d1 d2).map Event.tx ++ [Event.wait 100] }.atRest ∧
    ((encWrite3Frame a d0 d1 d2).map Event.tx).length = 11) ∧
  encWriteFrame 0x32 0x80 = [0x55, 0x00, 0x09, 0x00, 0x32, 0x80, 0x44, 0x00, 0xAA] ∧
  encWrite3Frame 0x6C 0x12 0x34 0x56 = [0x55, 0x00, 0x0B, 0x00, 0x6C, 0x12, 0x34, 0x56, 0xEC, 0x00, 0xAA]

/-- `RECEIVE_ONE`: with fewer than nine bytes in the transport it does not move; else it takes exactly the
next nine, whatever they are, and hands on the one at zero-based offset 5 (40_frame_codec.md section 4;
the base of the offset and the absence of a flush are the spec's decisions D6, D17; that the nine are
taken in one move is log entry 8). -/
def Obligations.ReceiveTakesNineBytes : Prop :=
  (∀ (rest : List Action) (s : State), s.busy = true → s.settle = 0 → s.todo = .receive :: rest →
    s.rx.length < 9 → tick s = s) ∧
  (∀ (rest : List Action) (s : State) (r0 r1 r2 r3 r4 r5 r6 r7 r8 : Byte) (more : List Byte),
    s.busy = true → s.settle = 0 → s.todo = .receive :: rest →
    s.rx = r0 :: r1 :: r2 :: r3 :: r4 :: r5 :: r6 :: r7 :: r8 :: more →
    tick s =
      { s with
        trace := s.trace ++ [Event.rx [r0, r1, r2, r3, r4, r5, r6, r7, r8]]
        rx := more
        rxcount := 9
        todo := .compareStatus r5 :: rest })

/-- At every moment of a command that only emits, what it has emitted and what it still has to emit are
together its own event sequence: the trace is a prefix of the whole (60_exceptions.md section 4, which the
spec marks as derived). CRUISE does not change meanwhile (20_memory.md section 9, decision D25). -/
def Obligations.EmittedPlusRemainingIsConstant : Prop :=
  ∀ (i : Instr) (l : List Action) (s : State) (n : Nat), (∀ a ∈ l, Safety.emitsOnly a = true) →
    (ticks n (accept i l s)).trace ++ Safety.remaining (ticks n (accept i l s)).todo =
      s.trace ++ Safety.remaining l ∧
    (ticks n (accept i l s)).cruise = s.cruise

/-- One move of the sequencer emits at most one event and never takes one back; nor does any number of
moves (00_scope.md section 6, 20_memory.md section 6). -/
def Obligations.MovesOnlyExtendTheTrace : Prop :=
  (∀ s : State, (tick s).trace = s.trace ∨ ∃ e, (tick s).trace = s.trace ++ [e]) ∧
  (∀ (s : State) (m n : Nat), m ≤ n → (ticks m s).trace <+: (ticks n s).trace)

/-! ### The commands -/

/-- HEIGHT completes from every idle state: one frame to 0x35 with the remapped, clamped height, its
settle delay, nothing else (43_motion_posture.md section 1; clamp and rounding are the spec's D4, D5).
The last clauses are corner cases and the example of that section. -/
def Obligations.HeightSendsItsByte : Prop :=
  (∀ (h : Int) (s : State), s.busy = false →
    ∃ b : Byte, Safety.IsByteOf b (remap20 (clamp h (-20) 20)) ∧
      exec (.height h) s = .next { s with trace := s.trace ++ Safety.sent (encWriteFrame 0x35 b) }.atRest) ∧
  remap20 (clamp (-128) (-20) 20) = 0x00 ∧ remap20 (clamp 127 (-20) 20) = 0xFF ∧ remap20 (clamp 10 (-20) 20) = 0xBF

/-- LEAN completes from every idle state: one frame to 0x36 (43_motion_posture.md section 1; D4, D5). -/
def Obligations.LeanSendsItsByte : Prop :=
  (∀ (a : Int) (s : State), s.busy = false →
    ∃ b : Byte, Safety.IsByteOf b (remap100 (clamp a (-100) 100)) ∧
      exec (.lean a) s = .next { s with trace := s.trace ++ Safety.sent (encWriteFrame 0x36 b) }.atRest) ∧
  remap100 (clamp (-100) (-100) 100) = 0x00 ∧ remap100 (clamp 100 (-100) 100) = 0xFF ∧
  remap100 (clamp (-90) (-100) 100) = 0x0D ∧ remap100 (clamp 90 (-100) 100) = 0xF2

/-- MOVE completes from every idle state, in both directions: one frame to 0x30 with the remapped
transform of the clamped speed; CRUISE is neither used nor changed (43_motion_posture.md section 2; D4,
D5, D8). -/
def Obligations.MoveSendsItsByte : Prop :=
  ∀ (v : Int) (s : State), s.busy = false →
    (∃ b : Byte, Safety.IsByteOf b (remap100 (fwd (clamp v 0 100))) ∧
      exec (.move .forward v) s =
        .next { s with trace := s.trace ++ Safety.sent (encWriteFrame 0x30 b) }.atRest) ∧
    (∃ b : Byte, Safety.IsByteOf b (remap100 (bwd (clamp v 0 100))) ∧
      exec (.move .backward v) s =
        .next { s with trace := s.trace ++ Safety.sent (encWriteFrame 0x30 b) }.atRest)

/-- The bytes of MOVE Forward, all of them, by the ranges of the speed (43_motion_posture.md section 2,
which the spec marks as derived). -/
def Obligations.MoveForwardBytes : Prop :=
  ∀ v : Int, 0 ≤ v → v ≤ 100 →
    remap100 (fwd v) =
      if v = 0 then 128 else if v ≤ 2 then 126 else if v ≤ 6 then 125 else if v ≤ 12 then 124
      else if v ≤ 20 then 122 else if v ≤ 30 then 121 else if v ≤ 42 then 120 else if v ≤ 56 then 119
      else if v ≤ 72 then 117 else if v ≤ 90 then 116 else 115

/-- The bytes of MOVE Backward: never below 128, the rows of the table, and not monotonic; the byte 128 is
sent for speed 2 alone (43_motion_posture.md section 2, which the spec marks as derived; conflict C1). -/
def Obligations.MoveBackwardBytes : Prop :=
  (∀ v : Int, 0 ≤ v → v ≤ 100 → 128 ≤ remap100 (bwd v) ∧ (remap100 (bwd v) = 128 ↔ v = 2)) ∧
  [0, 1, 2, 3, 50, 96, 97, 98, 99, 100].map (fun v => remap100 (bwd v)) =
    [130, 131, 128, 129, 189, 252, 254, 250, 251, 255] ∧
  remap100 (bwd 98) < remap100 (bwd 97)

/-- ROTATE completes from every idle state, in both directions: one frame to 0x32 with the remapped speed,
negated for Clockwise (43_motion_posture.md section 3; D4, D5, D8). -/
def Obligations.RotateSendsItsByte : Prop :=
  ∀ (v : Int) (s : State), s.busy = false →
    (∃ b : Byte, Safety.IsByteOf b (remap100 (-(clamp v (-100) 100))) ∧
      exec (.rotate .clockwise v) s =
        .next { s with trace := s.trace ++ Safety.sent (encWriteFrame 0x32 b) }.atRest) ∧
    (∃ b : Byte, Safety.IsByteOf b (remap100 (clamp v (-100) 100)) ∧
      exec (.rotate .counterClockwise v) s =
        .next { s with trace := s.trace ++ Safety.sent (encWriteFrame 0x32 b) }.atRest)

/-- ROTATE Clockwise by `v` and CounterClockwise by `-v` do the same, for every integer
(43_motion_posture.md section 3). -/
def Obligations.RotateDirectionsMirror : Prop :=
  ∀ (v : Int) (s : State), exec (.rotate .clockwise v) s = exec (.rotate .counterClockwise (-v)) s

/-- STOP completes from every idle state: the byte of zero, 0x80, to 0x30 and then to 0x32; height, lean,
LEDs and CRUISE are left alone (43_motion_posture.md section 3; the byte of zero rests on D5). -/
def Obligations.StopSendsTwoFrames : Prop :=
  (∀ s : State, s.busy = false →
    exec .stop s = .next { s with trace := s.trace ++
      (Safety.sent [0x55, 0x00, 0x09, 0x00, 0x30, 0x80, 0x46, 0x00, 0xAA] ++
       Safety.sent [0x55, 0x00, 0x09, 0x00, 0x32, 0x80, 0x44, 0x00, 0xAA]) }.atRest) ∧
  remap100 0 = 0x80

/-- LED completes from every idle state, for every mask and colour: for each set bit, in ascending address
order, one three-byte write of red, green and blue; nothing for mask 0 (44_led_color.md; the mask's bit
numbers are the spec's D7). -/
def Obligations.LedWritesSelectedQuadrants : Prop :=
  (∀ (mask : BitVec 4) (color : BitVec 24) (s : State), s.busy = false →
    exec (.led mask color) s = .next { s with trace := s.trace ++
      ((if mask.getLsbD 0 then Safety.sent (encWrite3Frame 0x69 (red color) (green color) (blue color)) else []) ++
       (if mask.getLsbD 1 then Safety.sent (encWrite3Frame 0x6A (red color) (green color) (blue color)) else []) ++
       (if mask.getLsbD 2 then Safety.sent (encWrite3Frame 0x6B (red color) (green color) (blue color)) else []) ++
       (if mask.getLsbD 3 then Safety.sent (encWrite3Frame 0x6C (red color) (green color) (blue color))
        else [])) }.atRest) ∧
  (∀ (color : BitVec 24) (s : State), s.busy = false → exec (.led 0 color) s = .next s.atRest)

/-- SETSPD completes from every idle state: CRUISE becomes the clamped operand, with no event and no other
change (42_system_commands.md section 2). The last clauses are its corner cases and examples. -/
def Obligations.SetspdStoresClampedSpeed : Prop :=
  (∀ (p : Int) (s : State), s.busy = false →
    exec (.setspd p) s = .next { s with cruise := (clamp p 0 100).toNat }) ∧
  (∀ p : Int, (p < 0 → (clamp p 0 100).toNat = 0) ∧ (100 < p → (clamp p 0 100).toNat = 100) ∧
    (0 ≤ p → p ≤ 100 → ((clamp p 0 100).toNat : Int) = p)) ∧
  (clamp 75 0 100).toNat = 75 ∧ (clamp (-3) 0 100).toNat = 0 ∧ (clamp 120 0 100).toNat = 100

/-- RIDE completes from every idle state with a legal CRUISE: the rotation is zeroed first, then MOVE is
done with CRUISE; CRUISE stays (43_motion_posture.md section 4; the direction operand is the spec's D13,
the rounding D5). -/
def Obligations.RideMovesAtCruiseSpeed : Prop :=
  ∀ s : State, s.busy = false → s.cruise ≤ 100 →
    (∃ b : Byte, Safety.IsByteOf b (remap100 (fwd s.cruise)) ∧
      exec (.ride .forward) s = .next { s with trace := s.trace ++
        (Safety.sent (encWriteFrame 0x32 0x80) ++ Safety.sent (encWriteFrame 0x30 b)) }.atRest) ∧
    (∃ b : Byte, Safety.IsByteOf b (remap100 (bwd s.cruise)) ∧
      exec (.ride .backward) s = .next { s with trace := s.trace ++
        (Safety.sent (encWriteFrame 0x32 0x80) ++ Safety.sent (encWriteFrame 0x30 b)) }.atRest)

/-- TURN completes from every idle state with a legal CRUISE: two frames, both to 0x32, the byte of zero
and then the remapped CRUISE, negated for Clockwise (43_motion_posture.md section 4; what follows the
first frame is the spec's decision D12, its address conflict C2). -/
def Obligations.TurnRotatesAtCruiseSpeed : Prop :=
  ∀ s : State, s.busy = false → s.cruise ≤ 100 →
    (∃ b : Byte, Safety.IsByteOf b (remap100 (-(s.cruise : Int))) ∧
      exec (.turn .clockwise) s = .next { s with trace := s.trace ++
        (Safety.sent (encWriteFrame 0x32 0x80) ++ Safety.sent (encWriteFrame 0x32 b)) }.atRest) ∧
    (∃ b : Byte, Safety.IsByteOf b (remap100 s.cruise) ∧
      exec (.turn .counterClockwise) s = .next { s with trace := s.trace ++
        (Safety.sent (encWriteFrame 0x32 0x80) ++ Safety.sent (encWriteFrame 0x32 b)) }.atRest)

/-- INIT completes from every idle state whose transport holds nine bytes: the read request, its delay, the
nine bytes taken; then nothing for the status byte 0x00, and for each of the other 255 values the trigger
write, its delay and the 1000 ms delay (42_system_commands.md section 1; the offset 5 is the spec's D6). -/
def Obligations.InitReadsStatusAndTriggers : Prop :=
  ∀ (s : State) (r0 r1 r2 r3 r4 st r6 r7 r8 : Byte) (more : List Byte), s.busy = false →
    s.rx = r0 :: r1 :: r2 :: r3 :: r4 :: st :: r6 :: r7 :: r8 :: more →
    exec .init s = .next { s with
      trace := s.trace ++
        (Safety.sent [0x55, 0x00, 0x09, 0x02, 0x02, 0x01, 0xF1, 0x00, 0xAA] ++
         [Event.rx [r0, r1, r2, r3, r4, st, r6, r7, r8]] ++
         if st = 0x00 then []
         else Safety.sent [0x55, 0x00, 0x09, 0x00, 0x3E, 0xFF, 0xB9, 0x00, 0xAA] ++ [Event.wait 1000])
      rx := more }.atRest

/-- INIT with fewer than nine bytes in the transport does not complete: it emits the read request and its
delay, takes no byte, and the block is busy with it (60_exceptions.md section 4; 95_test_vectors.md
section 2.7). -/
def Obligations.InitWaitsForNineBytes : Prop :=
  ∀ s : State, s.busy = false → s.rx.length < 9 →
    exec .init s = .next { s with
      trace := s.trace ++ Safety.sent [0x55, 0x00, 0x09, 0x02, 0x02, 0x01, 0xF1, 0x00, 0xAA]
      busy := true, cmd := some .init, todo := [.receive], settle := 0, rxcount := 0 }

/-- The three codec encoders run from every idle state: each returns its frame, emits nothing and changes
nothing else. That they run as steps and that the result stands in `built` is the model's (log entry 4);
the frames are those of 40_frame_codec.md section 2. -/
def Obligations.EncodersReturnTheirFrames : Prop :=
  ∀ s : State, s.busy = false →
    (∀ a d : Byte, exec (.encWrite a d) s = .next { s with built := some (encWriteFrame a d) }) ∧
    (∀ a d0 d1 d2 : Byte,
      exec (.encWrite3 a d0 d1 d2) s = .next { s with built := some (encWrite3Frame a d0 d1 d2) }) ∧
    (∀ a n : Byte, exec (.encRead a n) s = .next { s with built := some (encReadFrame a n) })

/-- The operand clamp of the command port: an operand outside its domain has the effect of the nearest one
inside (30_encoding.md section 5; the place of the clamp is the spec's decision D4, log entry 9). -/
def Obligations.OperandsAreClampedAtThePort : Prop :=
  ∀ (x : Int) (s : State),
    exec (.height x) s = exec (.height (clamp x (-20) 20)) s ∧
    exec (.lean x) s = exec (.lean (clamp x (-100) 100)) s ∧
    (∀ dir, exec (.move dir x) s = exec (.move dir (clamp x 0 100)) s) ∧
    (∀ dir, exec (.rotate dir x) s = exec (.rotate dir (clamp x (-100) 100)) s) ∧
    exec (.setspd x) s = exec (.setspd (clamp x 0 100)) s

/-- The pseudo-commands: each expands to one well-formed command, the two of a pair to opposite operands;
STRETCH 20 and SHRINK 20 are the ends of HEIGHT; LEANL is the positive LEAN and LEANR the negative one for
every angle, or the other way round for every angle, since the sign is one parameter
(43_motion_posture.md section 5; D14; the sign is open, D15, log entry 14, and stays so here). -/
def Obligations.PseudoCommandsExpand : Prop :=
  (∀ x : Fin 21, expand (.stretch x) = .height x.val ∧ expand (.shrink x) = .height (-(x.val : Int))) ∧
  ((∀ d : Fin 46, expand (.leanL d) = .lean (2 * d.val) ∧ expand (.leanR d) = .lean (-(2 * d.val))) ∨
   (∀ d : Fin 46, expand (.leanL d) = .lean (-(2 * d.val)) ∧ expand (.leanR d) = .lean (2 * d.val))) ∧
  (∀ q : Pseudo, (expand q).WellFormed) ∧
  remap20 20 = 0xFF ∧ remap20 (-20) = 0x00 ∧ expand (.stretch 0) = expand (.shrink 0) ∧
  expand (.leanL 0) = .lean 0 ∧ expand (.leanR 0) = .lean 0

/-- The `WAIT` events that each instruction emits from every idle state, in order, and their sum, row by row
of the table of 70_reset_and_hazards.md section 4, which the spec marks as derived; an INIT that finds fewer
than nine bytes has emitted only the read request's delay. The encoders are not in the table: they emit
nothing (40_frame_codec.md section 2; that they run as steps is log entry 4). That a delay is an event
without time is decision D19, log entry 7. -/
def Obligations.CommandDelays : Prop :=
  ∀ s : State, s.busy = false →
    (∀ p, Safety.ExecWaits (.setspd p) s [] 0) ∧
    (∀ h, Safety.ExecWaits (.height h) s [100] 100) ∧
    (∀ a, Safety.ExecWaits (.lean a) s [100] 100) ∧
    (∀ dir v, Safety.ExecWaits (.move dir v) s [100] 100) ∧
    (∀ dir v, Safety.ExecWaits (.rotate dir v) s [100] 100) ∧
    Safety.ExecWaits .stop s [100, 100] 200 ∧
    (∀ dir, Safety.ExecWaits (.ride dir) s [100, 100] 200) ∧
    (∀ dir, Safety.ExecWaits (.turn dir) s [100, 100] 200) ∧
    (∀ (mask : BitVec 4) (color : BitVec 24) (k : Nat),
      k = (mask.getLsbD 0).toNat + (mask.getLsbD 1).toNat + (mask.getLsbD 2).toNat + (mask.getLsbD 3).toNat →
      Safety.ExecWaits (.led mask color) s (List.replicate k 100) (100 * k)) ∧
    (9 ≤ s.rx.length → s.rx.getD 5 0 = 0x00 → Safety.ExecWaits .init s [100] 100) ∧
    (9 ≤ s.rx.length → s.rx.getD 5 0 ≠ 0x00 → Safety.ExecWaits .init s [100, 100, 1000] 1200) ∧
    (s.rx.length < 9 → Safety.ExecWaits .init s [100] 100) ∧
    (∀ a d, Safety.ExecWaits (.encWrite a d) s [] 0) ∧
    (∀ a d0 d1 d2, Safety.ExecWaits (.encWrite3 a d0 d1 d2) s [] 0) ∧
    (∀ a n, Safety.ExecWaits (.encRead a n) s [] 0)

/-! ### Frames of the whole instruction set -/

/-- What no instruction changes, and what only some do, from every state: what the host presents never
changes; CRUISE changes by SETSPD alone; the receive stream by INIT alone, which takes nine bytes or none;
the codec result by the encoders alone; and the trace is only added to (42_system_commands.md section 2,
10_state.md sections 4 and 8, 40_frame_codec.md section 2). -/
def Obligations.InstructionFrames : Prop :=
  ∀ (i : Instr) (s t : State), exec i s = .next t →
    t.pending = s.pending ∧
    s.trace <+: t.trace ∧
    ((∀ p, i ≠ .setspd p) → t.cruise = s.cruise) ∧
    (i ≠ .init → t.rx = s.rx) ∧
    (i = .init → t.rx = s.rx ∨ (9 ≤ s.rx.length ∧ t.rx = s.rx.drop 9)) ∧
    ((∀ a d, i ≠ .encWrite a d) → (∀ a d0 d1 d2, i ≠ .encWrite3 a d0 d1 d2) → (∀ a n, i ≠ .encRead a n) →
      t.built = s.built) ∧
    ((∃ p, i = .setspd p) ∨ (∃ a d, i = .encWrite a d) ∨ (∃ a d0 d1 d2, i = .encWrite3 a d0 d1 d2) ∨
      (∃ a n, i = .encRead a n) → t.trace = s.trace)

/-- Only RIDE and TURN read CRUISE: any other instruction does the same whatever CRUISE holds
(10_state.md section 4). -/
def Obligations.OnlyRideAndTurnReadCruise : Prop :=
  ∀ (i : Instr) (s t : State) (c : Nat),
    (∀ dir, i ≠ .ride dir) → (∀ dir, i ≠ .turn dir) → (∀ p, i ≠ .setspd p) →
    exec i s = .next t → exec i { s with cruise := c } = .next { t with cruise := c }

/-- Of the nine reply bytes only the one at offset 5 has an effect: two replies that agree there leave the
same state, but for the record of the bytes taken (30_encoding.md section 1; decisions D6, D28). -/
def Obligations.OnlyTheStatusByteMatters : Prop :=
  ∀ (s t t' : State) (r r' more : List Byte), r.length = 9 → r'.length = 9 → r.getD 5 0 = r'.getD 5 0 →
    exec .init { s with rx := r ++ more } = .next t →
    exec .init { s with rx := r' ++ more } = .next t' →
    s.busy = false →
    t'.trace.map Safety.hideReply = t.trace.map Safety.hideReply ∧
    { t' with trace := [] } = { t with trace := [] }

/-- Every instruction answers a next state from every state: nothing faults and nothing is refused. From a
state that is not busy it leaves the block not busy, or is an INIT that found fewer than nine bytes and waits
in its read; and from an idle state, with no remnant in the sequencer, what is not waiting is idle again
(60_exceptions.md sections 1 and 4). -/
def Obligations.EveryInstructionCompletesOrWaits : Prop :=
  ∀ (i : Instr) (s : State),
    ∃ t, exec i s = .next t ∧
      (s.busy = false → t.busy = false ∨ (i = .init ∧ s.rx.length < 9 ∧ Safety.Stuck t)) ∧
      (Safety.Idle s → Safety.Idle t ∨ (i = .init ∧ s.rx.length < 9 ∧ Safety.Stuck t))

/-- While a command is in progress the block accepts nothing: no instruction has an effect, and a step
leaves what the host presents where it is (10_state.md section 2; decision D16). -/
def Obligations.BusyBlockAcceptsNothing : Prop :=
  ∀ s : State, s.busy = true →
    (∀ i : Instr, exec i s = .next s) ∧ ∃ t, step s = .next t ∧ t.pending = s.pending

/-! ### The step -/

/-- A step of an idle block takes the offer at the port and runs the instruction it decodes to; with
nothing at the port it changes nothing; and an instruction placed by `withFetchWord` is the one the very
next step runs (10_state.md section 2; log entry 2). -/
def Obligations.StepRunsTheDecodedInstruction : Prop :=
  (∀ (s : State) (o : Offer) (rest : List Offer) (i : Instr), s.busy = false → s.pending = o :: rest →
    decode o = .ok i → step s = exec i { s with pending := rest }) ∧
  (∀ s : State, s.busy = false → s.pending = [] → step s = .next s) ∧
  (∀ (s : State) (nbits w : Nat) (i : Instr), decodeTableWord nbits w = some i →
    step (s.withFetchWord nbits w) = exec i s.atRest)

/-- A step never faults, and is refused exactly where an idle block is offered what does not decode: a
reserved word (refused by the spec's decision D11) or a byte sequence that is no frame (log entry 4). -/
def Obligations.StepRefusesOnlyWhatDoesNotDecode : Prop :=
  ∀ s : State,
    (∀ f, step s ≠ .fault f) ∧
    ∀ r, step s = .refused r ↔
      s.busy = false ∧ ∃ o rest, s.pending = o :: rest ∧
        ((∃ w, decode o = .error (.reservedWord w) ∧ r = .reservedWord w) ∨
         (∃ bs, decode o = .error (.notAFrame bs) ∧ r = .notAFrame bs))

/-- A stuck block stays as it is: no step, and no instruction, changes anything, whatever the host
presents (60_exceptions.md section 4). -/
def Obligations.StuckBlockStays : Prop :=
  ∀ (s : State) (os : List Offer), Safety.Stuck s →
    step { s with pending := os } = .next { s with pending := os } ∧ ∀ i, exec i s = .next s

/-- What lifts a blocked read is receive bytes: once the transport holds nine, the next step takes them and
completes the INIT (60_exceptions.md section 4; that a reset in this state is refused is decision D20). -/
def Obligations.ReceiveBytesLiftTheBlock : Prop :=
  ∀ (s : State) (bs : List Byte), Safety.Waiting s → 9 ≤ (s.rx ++ bs).length →
    step (s.supplyRx bs) = .next { s with
      trace := s.trace ++ [Event.rx ((s.rx ++ bs).take 9)] ++
        (if (s.rx ++ bs).getD 5 0 = 0x00 then []
         else Safety.sent [0x55, 0x00, 0x09, 0x00, 0x3E, 0xFF, 0xB9, 0x00, 0xAA] ++ [Event.wait 1000])
      rx := (s.rx ++ bs).drop 9 }.atRest

/-- The invariant holds at reset. -/
def Obligations.InvariantHoldsAtReset : Prop := Safety.Inv State.reset

/-- Every step keeps the invariant: CRUISE stays in 0..100, the block is idle or waits in INIT's read, and
the trace is whole well-formed frames to the ten addresses, each followed by its settle delay
(10_state.md section 4, 20_memory.md sections 3 and 6). -/
def Obligations.StepKeepsTheInvariant : Prop :=
  ∀ s t : State, Safety.Inv s → step s = .next t → Safety.Inv t

/-- The environment keeps the invariant: a command presented, bytes received, reset asserted. -/
def Obligations.EnvironmentKeepsTheInvariant : Prop :=
  ∀ s : State, Safety.Inv s →
    (∀ o, Safety.Inv (s.present o)) ∧ (∀ bs, Safety.Inv (s.supplyRx bs)) ∧
    (∀ t, s.assertReset = .next t → Safety.Inv t)

/-- Reset: CRUISE is 50, the block is idle, the trace is empty; a reset asserted from idle gives that,
whatever the state was, and keeps what the transport and the host hold; one asserted while a command runs
is refused (70_reset_and_hazards.md section 1; all but CRUISE's value is the spec's decision D20; the kept
streams are log entry 16). -/
def Obligations.ResetLeavesTheResetState : Prop :=
  (State.reset.cruise = 50 ∧ Safety.Idle State.reset ∧ State.reset.trace = []) ∧
  (∀ s : State, s.busy = false →
    ∃ t, s.assertReset = .next t ∧ t.cruise = 50 ∧ Safety.Idle t ∧ t.trace = [] ∧
      t.rx = s.rx ∧ t.pending = s.pending) ∧
  (∀ s : State, s.busy = true → s.assertReset = .refused .resetWhileBusy)

/-- A run's result is the concatenation of the commands' own event sequences, in the order of issue, with
CRUISE threaded through them and nine reply bytes taken by each INIT: for every list of well-formed
instructions presented to an idle block in any state, as long as no INIT is starved (20_memory.md
section 6, 70_reset_and_hazards.md section 5). -/
def Obligations.RunConcatenatesTheCommands : Prop :=
  ∀ (is : List Instr) (s : State) (evs : List Event) (c : Nat) (rx : List Byte),
    Safety.Idle s → (∀ i ∈ is, i.WellFormed) → s.pending = is.map encode →
    Safety.replay is s.cruise s.rx = some (evs, c, rx) →
    ∃ t, Sys2Proof.core.run is.length s = .next t ∧
      Safety.Idle t ∧ t.trace = s.trace ++ evs ∧ t.cruise = c ∧ t.rx = rx ∧ t.pending = []

/-- Over any number of steps from any state the trace is only added to: no event is taken back, merged or
reordered (20_memory.md section 6). -/
def Obligations.RunsOnlyExtendTheTrace : Prop :=
  ∀ (n : Nat) (s t : State), Sys2Proof.core.run n s = .next t → s.trace <+: t.trace
end

