-- ==== Sys2Proof/Laws/Decode.lean ====
section
/-! SUPPORT. A command word and its four fields: reading a field of a word built from fields, every word
built from its own fields, and each row of the command table said field by field. -/

namespace Sys2Proof.Laws

open Sys2Proof.Machine

/-! ### The fields of a command word -/

/-- Bit `i` of a command word, by the field it lies in. -/
theorem commandFields_getLsbD (op m : BitVec 4) (hi : BitVec 16) (v : Byte) (i : Nat) :
    (commandFields op m hi v).getLsbD i =
      if i < 8 then v.getLsbD i else if i < 24 then hi.getLsbD (i - 8)
      else if i < 28 then m.getLsbD (i - 24) else op.getLsbD (i - 28) := by
  have h : ((op ++ m ++ hi) ++ v).getLsbD i =
      if i < 8 then v.getLsbD i else if i < 24 then hi.getLsbD (i - 8)
      else if i < 28 then m.getLsbD (i - 24) else op.getLsbD (i - 28) := by
    rw [BitVec.getLsbD_append, BitVec.getLsbD_append, BitVec.getLsbD_append]
    simp only [show i - 8 - 16 = i - 24 by omega, show i - 24 - 4 = i - 28 by omega]
    repeat' split
    all_goals first | rfl | omega
  exact h

@[simp] theorem commandFields_op (op m : BitVec 4) (hi : BitVec 16) (v : Byte) :
    (commandFields op m hi v).extractLsb' 28 4 = op := by
  apply BitVec.eq_of_getLsbD_eq
  intro i h
  simp only [BitVec.getLsbD_extractLsb', commandFields_getLsbD, h, decide_true, Bool.true_and]
  simp [show ¬ 28 + i < 8 by omega, show ¬ 28 + i < 24 by omega]

@[simp] theorem commandFields_m (op m : BitVec 4) (hi : BitVec 16) (v : Byte) :
    (commandFields op m hi v).extractLsb' 24 4 = m := by
  apply BitVec.eq_of_getLsbD_eq
  intro i h
  simp only [BitVec.getLsbD_extractLsb', commandFields_getLsbD, h, decide_true, Bool.true_and]
  simp [show ¬ 24 + i < 8 by omega, show 24 + i < 28 by omega]

@[simp] theorem commandFields_hi (op m : BitVec 4) (hi : BitVec 16) (v : Byte) :
    (commandFields op m hi v).extractLsb' 8 16 = hi := by
  apply BitVec.eq_of_getLsbD_eq
  intro i h
  simp only [BitVec.getLsbD_extractLsb', commandFields_getLsbD, h, decide_true, Bool.true_and]
  simp [show 8 + i < 24 by omega]

@[simp] theorem commandFields_v (op m : BitVec 4) (hi : BitVec 16) (v : Byte) :
    (commandFields op m hi v).extractLsb' 0 8 = v := by
  apply BitVec.eq_of_getLsbD_eq
  intro i h
  simp only [BitVec.getLsbD_extractLsb', commandFields_getLsbD, h, decide_true, Bool.true_and]
  simp [h]

/-- The colour of an LED word: `hi` and `v` together. -/
theorem commandFields_color (op m : BitVec 4) (color : BitVec 24) :
    (commandFields op m (color.extractLsb' 8 16) (color.extractLsb' 0 8)).extractLsb' 0 24 = color := by
  apply BitVec.eq_of_getLsbD_eq
  intro i h
  simp only [BitVec.getLsbD_extractLsb', commandFields_getLsbD, h, decide_true, Bool.true_and, Nat.zero_add]
  by_cases h8 : i < 8
  · simp [h8]
  · simp [h8, show i - 8 < 16 by omega, show 8 + (i - 8) = i by omega]

/-- Bit 24 of a command word is bit 0 of `m`. -/
theorem commandFields_bit24 (op m : BitVec 4) (hi : BitVec 16) (v : Byte) :
    (commandFields op m hi v).getLsbD 24 = m.getLsbD 0 := by
  rw [commandFields_getLsbD]; simp

theorem moveDirBit_field (op : BitVec 4) (dir : MoveDir) (hi : BitVec 16) (v : Byte) :
    moveDirBit (commandFields op (moveDirField dir) hi v) = dir := by
  rw [moveDirBit, commandFields_bit24]; cases dir <;> rfl

theorem rotDirBit_field (op : BitVec 4) (dir : RotDir) (hi : BitVec 16) (v : Byte) :
    rotDirBit (commandFields op (rotDirField dir) hi v) = dir := by
  rw [rotDirBit, commandFields_bit24]; cases dir <;> rfl

/-- A signed byte is read back from its two's-complement byte. -/
theorem signedOperand_field (op m : BitVec 4) (hi : BitVec 16) {x : Int} (h : SignedByte x) :
    signedOperand (commandFields op m hi (operandByte x)) = x := by
  rw [signedOperand, commandFields_v, operandByte, BitVec.toInt_ofInt]
  obtain ⟨h1, h2⟩ := h
  simp only [Int.bmod]
  omega

/-- Every command word is built from its own fields. -/
theorem commandFields_of_word (w : CommandWord) :
    commandFields (w.extractLsb' 28 4) (w.extractLsb' 24 4) (w.extractLsb' 8 16) (w.extractLsb' 0 8) = w := by
  apply BitVec.eq_of_getLsbD_eq
  intro i h
  rw [commandFields_getLsbD]
  simp only [BitVec.getLsbD_extractLsb']
  split
  · simp_all
  · split
    · simp [show i - 8 < 16 by omega, show 8 + (i - 8) = i by omega]
    · split
      · simp [show i - 24 < 4 by omega, show 24 + (i - 24) = i by omega]
      · simp [show i - 28 < 4 by omega, show 28 + (i - 28) = i by omega]

/-- Two words built from fields are equal if the fields are. -/
theorem commandFields_inj {op op' m m' : BitVec 4} {hi hi' : BitVec 16} {v v' : Byte} :
    commandFields op m hi v = commandFields op' m' hi' v' ↔ op = op' ∧ m = m' ∧ hi = hi' ∧ v = v' := by
  constructor
  · intro h
    refine ⟨?_, ?_, ?_, ?_⟩
    · rw [← commandFields_op op m hi v, h, commandFields_op]
    · rw [← commandFields_m op m hi v, h, commandFields_m]
    · rw [← commandFields_hi op m hi v, h, commandFields_hi]
    · rw [← commandFields_v op m hi v, h, commandFields_v]
  · rintro ⟨rfl, rfl, rfl, rfl⟩
    rfl

/-- AND acts field by field on a command word. -/
theorem commandFields_and (op op' m m' : BitVec 4) (hi hi' : BitVec 16) (v v' : Byte) :
    commandFields op m hi v &&& commandFields op' m' hi' v' =
      commandFields (op &&& op') (m &&& m') (hi &&& hi') (v &&& v') := by
  apply BitVec.eq_of_getLsbD_eq
  intro i _
  simp only [BitVec.getLsbD_and, commandFields_getLsbD]
  repeat' split
  all_goals rfl

/-- A row selects a word if the mask's fields, ANDed with the word's, give the pattern's. -/
theorem selectsRow_iff {op op' m m' q : BitVec 4} {hi hi' : BitVec 16} {v v' : Byte} {q' : BitVec 4}
    {q'' : BitVec 16} {q''' : Byte} {pattern mask : CommandWord}
    (hmask : commandFields op' m' hi' v' = mask) (hpattern : commandFields q q' q'' q''' = pattern) :
    selectsRow pattern mask (commandFields op m hi v) = true ↔
      op &&& op' = q ∧ m &&& m' = q' ∧ hi &&& hi' = q'' ∧ v &&& v' = q''' := by
  subst hmask hpattern
  rw [selectsRow, commandFields_and, beq_iff_eq, commandFields_inj]

/-! ### The rows of the command table (30_encoding.md R55), by fields -/

section Rows

variable {op m : BitVec 4} {hi : BitVec 16} {v : Byte}

theorem and_ones4 (x : BitVec 4) : x &&& 0xF = x := BitVec.and_allOnes
theorem and_ones16 (x : BitVec 16) : x &&& 0xFFFF = x := BitVec.and_allOnes
theorem and_ones8 (x : Byte) : x &&& 0xFF = x := BitVec.and_allOnes
theorem and_zeros {n : Nat} (x : BitVec n) : x &&& 0 = 0 := BitVec.and_zero

theorem selects_init :
    selectsRow 0x00000000 0xFFFFFFFF (commandFields op m hi v) = true ↔ op = 0 ∧ m = 0 ∧ hi = 0 ∧ v = 0 := by
  refine (selectsRow_iff (op' := 0xF) (m' := 0xF) (hi' := 0xFFFF) (v' := 0xFF) rfl
    (q := 0) (q' := 0) (q'' := 0) (q''' := 0) rfl).trans ?_
  rw [and_ones4, and_ones4, and_ones16, and_ones8]

theorem selects_stop :
    selectsRow 0x50000000 0xFFFFFFFF (commandFields op m hi v) = true ↔ op = 5 ∧ m = 0 ∧ hi = 0 ∧ v = 0 := by
  refine (selectsRow_iff (op' := 0xF) (m' := 0xF) (hi' := 0xFFFF) (v' := 0xFF) rfl
    (q := 5) (q' := 0) (q'' := 0) (q''' := 0) rfl).trans ?_
  rw [and_ones4, and_ones4, and_ones16, and_ones8]

theorem selects_height :
    selectsRow 0x10000000 0xFFFFFF00 (commandFields op m hi v) = true ↔ op = 1 ∧ m = 0 ∧ hi = 0 := by
  refine (selectsRow_iff (op' := 0xF) (m' := 0xF) (hi' := 0xFFFF) (v' := 0) rfl
    (q := 1) (q' := 0) (q'' := 0) (q''' := 0) rfl).trans ?_
  rw [and_ones4, and_ones4, and_ones16, and_zeros]
  simp

theorem selects_lean :
    selectsRow 0x20000000 0xFFFFFF00 (commandFields op m hi v) = true ↔ op = 2 ∧ m = 0 ∧ hi = 0 := by
  refine (selectsRow_iff (op' := 0xF) (m' := 0xF) (hi' := 0xFFFF) (v' := 0) rfl
    (q := 2) (q' := 0) (q'' := 0) (q''' := 0) rfl).trans ?_
  rw [and_ones4, and_ones4, and_ones16, and_zeros]
  simp

theorem selects_setspd :
    selectsRow 0x70000000 0xFFFFFF00 (commandFields op m hi v) = true ↔ op = 7 ∧ m = 0 ∧ hi = 0 := by
  refine (selectsRow_iff (op' := 0xF) (m' := 0xF) (hi' := 0xFFFF) (v' := 0) rfl
    (q := 7) (q' := 0) (q'' := 0) (q''' := 0) rfl).trans ?_
  rw [and_ones4, and_ones4, and_ones16, and_zeros]
  simp

theorem selects_move :
    selectsRow 0x30000000 0xFEFFFF00 (commandFields op m hi v) = true ↔ op = 3 ∧ m &&& 0xE = 0 ∧ hi = 0 := by
  refine (selectsRow_iff (op' := 0xF) (m' := 0xE) (hi' := 0xFFFF) (v' := 0) rfl
    (q := 3) (q' := 0) (q'' := 0) (q''' := 0) rfl).trans ?_
  rw [and_ones4, and_ones16, and_zeros]
  simp

theorem selects_rotate :
    selectsRow 0x40000000 0xFEFFFF00 (commandFields op m hi v) = true ↔ op = 4 ∧ m &&& 0xE = 0 ∧ hi = 0 := by
  refine (selectsRow_iff (op' := 0xF) (m' := 0xE) (hi' := 0xFFFF) (v' := 0) rfl
    (q := 4) (q' := 0) (q'' := 0) (q''' := 0) rfl).trans ?_
  rw [and_ones4, and_ones16, and_zeros]
  simp

theorem selects_led :
    selectsRow 0x60000000 0xF0000000 (commandFields op m hi v) = true ↔ op = 6 := by
  refine (selectsRow_iff (op' := 0xF) (m' := 0) (hi' := 0) (v' := 0) rfl
    (q := 6) (q' := 0) (q'' := 0) (q''' := 0) rfl).trans ?_
  rw [and_ones4, and_zeros, and_zeros, and_zeros]
  simp

theorem selects_turn :
    selectsRow 0x80000000 0xFEFFFFFF (commandFields op m hi v) = true ↔
      op = 8 ∧ m &&& 0xE = 0 ∧ hi = 0 ∧ v = 0 := by
  refine (selectsRow_iff (op' := 0xF) (m' := 0xE) (hi' := 0xFFFF) (v' := 0xFF) rfl
    (q := 8) (q' := 0) (q'' := 0) (q''' := 0) rfl).trans ?_
  rw [and_ones4, and_ones16, and_ones8]

theorem selects_ride :
    selectsRow 0x90000000 0xFEFFFFFF (commandFields op m hi v) = true ↔
      op = 9 ∧ m &&& 0xE = 0 ∧ hi = 0 ∧ v = 0 := by
  refine (selectsRow_iff (op' := 0xF) (m' := 0xE) (hi' := 0xFFFF) (v' := 0xFF) rfl
    (q := 9) (q' := 0) (q'' := 0) (q''' := 0) rfl).trans ?_
  rw [and_ones4, and_ones16, and_ones8]

theorem moveDirField_and (dir : MoveDir) : moveDirField dir &&& 0xE = 0 := by cases dir <;> rfl
theorem rotDirField_and (dir : RotDir) : rotDirField dir &&& 0xE = 0 := by cases dir <;> rfl

end Rows

end Sys2Proof.Laws
end

