-- ==== Sys2Proof/Laws/State.lean ====
section
/-! SUPPORT. What each update of the state does to each field; every one is true by `rfl`. -/

namespace Sys2Proof.Machine

@[simp] theorem emit_cruise (e : Event) (s : State) : (emit e s).cruise = s.cruise := rfl
@[simp] theorem emit_busy (e : Event) (s : State) : (emit e s).busy = s.busy := rfl
@[simp] theorem emit_cmd (e : Event) (s : State) : (emit e s).cmd = s.cmd := rfl
@[simp] theorem emit_todo (e : Event) (s : State) : (emit e s).todo = s.todo := rfl
@[simp] theorem emit_settle (e : Event) (s : State) : (emit e s).settle = s.settle := rfl
@[simp] theorem emit_rxcount (e : Event) (s : State) : (emit e s).rxcount = s.rxcount := rfl
@[simp] theorem emit_trace (e : Event) (s : State) : (emit e s).trace = s.trace ++ [e] := rfl
@[simp] theorem emit_rx (e : Event) (s : State) : (emit e s).rx = s.rx := rfl
@[simp] theorem emit_pending (e : Event) (s : State) : (emit e s).pending = s.pending := rfl
@[simp] theorem emit_built (e : Event) (s : State) : (emit e s).built = s.built := rfl

@[simp] theorem accept_cruise (i : Instr) (l : List Action) (s : State) : (accept i l s).cruise = s.cruise := rfl
@[simp] theorem accept_busy (i : Instr) (l : List Action) (s : State) : (accept i l s).busy = true := rfl
@[simp] theorem accept_cmd (i : Instr) (l : List Action) (s : State) : (accept i l s).cmd = some i := rfl
@[simp] theorem accept_todo (i : Instr) (l : List Action) (s : State) : (accept i l s).todo = l := rfl
@[simp] theorem accept_settle (i : Instr) (l : List Action) (s : State) : (accept i l s).settle = 0 := rfl
@[simp] theorem accept_rxcount (i : Instr) (l : List Action) (s : State) : (accept i l s).rxcount = 0 := rfl
@[simp] theorem accept_trace (i : Instr) (l : List Action) (s : State) : (accept i l s).trace = s.trace := rfl
@[simp] theorem accept_rx (i : Instr) (l : List Action) (s : State) : (accept i l s).rx = s.rx := rfl
@[simp] theorem accept_pending (i : Instr) (l : List Action) (s : State) : (accept i l s).pending = s.pending := rfl
@[simp] theorem accept_built (i : Instr) (l : List Action) (s : State) : (accept i l s).built = s.built := rfl

@[simp] theorem atRest_cruise (s : State) : (s.atRest).cruise = s.cruise := rfl
@[simp] theorem atRest_busy (s : State) : (s.atRest).busy = false := rfl
@[simp] theorem atRest_cmd (s : State) : (s.atRest).cmd = none := rfl
@[simp] theorem atRest_todo (s : State) : (s.atRest).todo = [] := rfl
@[simp] theorem atRest_settle (s : State) : (s.atRest).settle = 0 := rfl
@[simp] theorem atRest_rxcount (s : State) : (s.atRest).rxcount = 0 := rfl
@[simp] theorem atRest_trace (s : State) : (s.atRest).trace = s.trace := rfl
@[simp] theorem atRest_rx (s : State) : (s.atRest).rx = s.rx := rfl
@[simp] theorem atRest_pending (s : State) : (s.atRest).pending = s.pending := rfl
@[simp] theorem atRest_built (s : State) : (s.atRest).built = s.built := rfl

@[simp] theorem present_cruise (s : State) (o : Offer) : (s.present o).cruise = s.cruise := rfl
@[simp] theorem present_busy (s : State) (o : Offer) : (s.present o).busy = s.busy := rfl
@[simp] theorem present_cmd (s : State) (o : Offer) : (s.present o).cmd = s.cmd := rfl
@[simp] theorem present_todo (s : State) (o : Offer) : (s.present o).todo = s.todo := rfl
@[simp] theorem present_settle (s : State) (o : Offer) : (s.present o).settle = s.settle := rfl
@[simp] theorem present_rxcount (s : State) (o : Offer) : (s.present o).rxcount = s.rxcount := rfl
@[simp] theorem present_trace (s : State) (o : Offer) : (s.present o).trace = s.trace := rfl
@[simp] theorem present_rx (s : State) (o : Offer) : (s.present o).rx = s.rx := rfl
@[simp] theorem present_pending (s : State) (o : Offer) : (s.present o).pending = s.pending ++ [o] := rfl
@[simp] theorem present_built (s : State) (o : Offer) : (s.present o).built = s.built := rfl

@[simp] theorem supplyRx_cruise (s : State) (bs : List Byte) : (s.supplyRx bs).cruise = s.cruise := rfl
@[simp] theorem supplyRx_busy (s : State) (bs : List Byte) : (s.supplyRx bs).busy = s.busy := rfl
@[simp] theorem supplyRx_cmd (s : State) (bs : List Byte) : (s.supplyRx bs).cmd = s.cmd := rfl
@[simp] theorem supplyRx_todo (s : State) (bs : List Byte) : (s.supplyRx bs).todo = s.todo := rfl
@[simp] theorem supplyRx_settle (s : State) (bs : List Byte) : (s.supplyRx bs).settle = s.settle := rfl
@[simp] theorem supplyRx_rxcount (s : State) (bs : List Byte) : (s.supplyRx bs).rxcount = s.rxcount := rfl
@[simp] theorem supplyRx_trace (s : State) (bs : List Byte) : (s.supplyRx bs).trace = s.trace := rfl
@[simp] theorem supplyRx_rx (s : State) (bs : List Byte) : (s.supplyRx bs).rx = s.rx ++ bs := rfl
@[simp] theorem supplyRx_pending (s : State) (bs : List Byte) : (s.supplyRx bs).pending = s.pending := rfl
@[simp] theorem supplyRx_built (s : State) (bs : List Byte) : (s.supplyRx bs).built = s.built := rfl

@[simp] theorem withFetchWord_cruise (s : State) (n w : Nat) : (s.withFetchWord n w).cruise = s.cruise := rfl
@[simp] theorem withFetchWord_busy (s : State) (n w : Nat) : (s.withFetchWord n w).busy = false := rfl
@[simp] theorem withFetchWord_cmd (s : State) (n w : Nat) : (s.withFetchWord n w).cmd = none := rfl
@[simp] theorem withFetchWord_todo (s : State) (n w : Nat) : (s.withFetchWord n w).todo = [] := rfl
@[simp] theorem withFetchWord_settle (s : State) (n w : Nat) : (s.withFetchWord n w).settle = 0 := rfl
@[simp] theorem withFetchWord_rxcount (s : State) (n w : Nat) : (s.withFetchWord n w).rxcount = 0 := rfl
@[simp] theorem withFetchWord_trace (s : State) (n w : Nat) : (s.withFetchWord n w).trace = s.trace := rfl
@[simp] theorem withFetchWord_rx (s : State) (n w : Nat) : (s.withFetchWord n w).rx = s.rx := rfl
@[simp] theorem withFetchWord_pending (s : State) (n w : Nat) : (s.withFetchWord n w).pending = tableOffer n w :: s.pending := rfl
@[simp] theorem withFetchWord_built (s : State) (n w : Nat) : (s.withFetchWord n w).built = s.built := rfl

@[simp] theorem ticks_zero (s : State) : ticks 0 s = s := rfl
@[simp] theorem ticks_succ (n : Nat) (s : State) : ticks (n + 1) s = ticks n (tick s) := rfl

end Sys2Proof.Machine
end

