-- ==== Sys2Proof/Laws/Ops.lean ====
section
/-! SUPPORT. What each shared operation can do, said once: the sequencer's moves, a list of events,
a receive, acceptance, the fetch and the step. -/

namespace Sys2Proof.Machine

@[simp] theorem remaining_append (l m : List Action) :
    Safety.remaining (l ++ m) = Safety.remaining l ++ Safety.remaining m := by
  induction l with
  | nil => rfl
  | cons a l ih => cases a <;> simp [Safety.remaining, ih]

@[simp] theorem remaining_map_tx (f : Frame) : Safety.remaining (f.map Action.tx) = f.map Event.tx := by
  induction f with
  | nil => rfl
  | cons b f ih => simp [Safety.remaining, ih]

@[simp] theorem remaining_transmit (f : Frame) :
    Safety.remaining (transmit f) = f.map Event.tx ++ [.wait 100] := by
  simp [transmit, Safety.remaining, settleMs]

theorem emitsOnly_of_mem_transmit (f : Frame) : ∀ a ∈ transmit f, Safety.emitsOnly a = true := by
  intro a ha
  simp only [transmit, List.mem_append, List.mem_map, List.mem_singleton] at ha
  obtain ⟨b, -, rfl⟩ | rfl := ha <;> rfl

/-! ### The delays of a trace -/

@[simp] theorem waits_append (l m : List Event) : Safety.waits (l ++ m) = Safety.waits l ++ Safety.waits m := by
  induction l with
  | nil => rfl
  | cons e l ih => cases e <;> simp [Safety.waits, ih]

@[simp] theorem waits_map_tx (f : Frame) : Safety.waits (f.map Event.tx) = [] := by
  induction f with
  | nil => rfl
  | cons b f ih => simpa [Safety.waits] using ih

@[simp] theorem waits_sent (f : Frame) : Safety.waits (Safety.sent f) = [100] := by
  simp [Safety.sent, Safety.waits]

/-! ### The sequencer -/

theorem ticks_add (m n : Nat) (s : State) : ticks (m + n) s = ticks n (ticks m s) := by
  induction m generalizing s with
  | zero => simp
  | succ m ih => rw [Nat.succ_add]; exact ih (tick s)

theorem tick_of_idle {s : State} (h : s.busy = false) : tick s = s := by simp [tick, h]

theorem ticks_of_idle {s : State} (h : s.busy = false) (n : Nat) : ticks n s = s := by
  induction n with
  | zero => rfl
  | succ n ih => rw [ticks_succ, tick_of_idle h, ih]

/-- Everything one move can do to the trace: nothing, or one more event. -/
theorem tick_trace (s : State) : (tick s).trace = s.trace ∨ ∃ e, (tick s).trace = s.trace ++ [e] := by
  unfold tick
  split
  · split
    · unfold perform
      split
      · exact .inl rfl
      · exact .inr ⟨_, rfl⟩
      · exact .inr ⟨_, rfl⟩
      · unfold receiveOne
        split
        · exact .inl rfl
        · exact .inr ⟨_, rfl⟩
      · exact .inl rfl
    · exact .inl rfl
  · exact .inl rfl

/-- A move of the sequencer writes neither CRUISE, nor what the host presents, nor the codec result. -/
theorem tick_frame (s : State) :
    (tick s).cruise = s.cruise ∧ (tick s).pending = s.pending ∧ (tick s).built = s.built := by
  unfold tick perform receiveOne
  repeat' split
  all_goals exact ⟨rfl, rfl, rfl⟩

theorem ticks_frame (n : Nat) (s : State) :
    (ticks n s).cruise = s.cruise ∧ (ticks n s).pending = s.pending ∧ (ticks n s).built = s.built := by
  induction n generalizing s with
  | zero => exact ⟨rfl, rfl, rfl⟩
  | succ n ih =>
    obtain ⟨h1, h2, h3⟩ := ih (tick s)
    obtain ⟨g1, g2, g3⟩ := tick_frame s
    exact ⟨h1.trans g1, h2.trans g2, h3.trans g3⟩

/-- A busy block with no delay running performs the head of its list. -/
theorem tick_of_busy {s : State} (hb : s.busy = true) (hs : s.settle = 0) : tick s = perform s := by
  simp [tick, hb, hs]

/-- The moves of a list of emitting actions emit exactly its events, and leave what follows it. -/
theorem ticks_emitting (l rest : List Action) (hp : ∀ a ∈ l, Safety.emitsOnly a = true) (s : State)
    (hb : s.busy = true) (hs : s.settle = 0) (ht : s.todo = l ++ rest) :
    ticks (l.map moves).sum s = { s with trace := s.trace ++ Safety.remaining l, todo := rest } := by
  induction l generalizing s with
  | nil => simp only [List.nil_append] at ht; subst ht; simp [Safety.remaining]
  | cons a l ih =>
    have hl : ∀ x ∈ l, Safety.emitsOnly x = true := fun x hx => hp x (List.mem_cons_of_mem _ hx)
    cases a with
    | tx b =>
      have h1 : tick s = { s with trace := s.trace ++ [.tx b], todo := l ++ rest } := by
        rw [tick_of_busy hb hs]; simp [perform, ht, emit]
      have := ih hl (tick s) (by simp [h1, hb]) (by simp [h1, hs]) (by simp [h1])
      simp only [List.map_cons, List.sum_cons, moves, ticks_add, ticks_succ, ticks_zero]
      rw [this, h1]
      simp [Safety.remaining]
    | wait ms =>
      have h1 : tick (tick s) = { s with trace := s.trace ++ [.wait ms], todo := l ++ rest } := by
        have hms : ms ≠ 0 := by simpa [Safety.emitsOnly] using hp (.wait ms) (by simp)
        rw [tick_of_busy hb hs]
        simp [perform, ht, emit, tick, hb, hms, hs]
      have := ih hl (tick (tick s)) (by simp [h1, hb]) (by simp [h1, hs]) (by simp [h1])
      simp only [List.map_cons, List.sum_cons, moves, ticks_add, ticks_succ, ticks_zero]
      rw [this, h1]
      simp [Safety.remaining]
    | receive => exact absurd (hp .receive (by simp)) (by simp [Safety.emitsOnly])
    | compareStatus st => exact absurd (hp (.compareStatus st) (by simp)) (by simp [Safety.emitsOnly])

/-- Once its actions are used up, the command is complete. -/
theorem ticks_of_done {s : State} (hb : s.busy = true) (hs : s.settle = 0) (ht : s.todo = []) (n : Nat) :
    ticks (n + 1) s = s.atRest := by
  rw [ticks_succ, tick_of_busy hb hs, perform, ht]
  exact ticks_of_idle rfl n

/-- A receive for which the transport holds too few bytes does not move. -/
theorem ticks_of_starved {s : State} {rest : List Action} (hb : s.busy = true) (hs : s.settle = 0)
    (ht : s.todo = .receive :: rest) (hr : s.rx.length < 9) (n : Nat) : ticks n s = s := by
  have h : tick s = s := by rw [tick_of_busy hb hs]; simp [perform, ht, receiveOne, replyLen, hr]
  induction n with
  | zero => rfl
  | succ n ih => rw [ticks_succ, h, ih]

theorem emitsOnly_of_mem_afterStatus (st : Byte) : ∀ a ∈ afterStatus st, Safety.emitsOnly a = true := by
  intro a ha
  unfold afterStatus at ha
  split at ha
  · simp at ha
  · rw [List.mem_append] at ha
    obtain ha | ha := ha
    · exact emitsOnly_of_mem_transmit _ a ha
    · rw [List.mem_singleton] at ha; subst ha; rfl

theorem sum_moves_afterStatus_le (st : Byte) : ((afterStatus st).map moves).sum ≤ 13 := by
  unfold afterStatus
  split
  · simp
  · decide

/-- A receive that ends a list, with nine bytes in the transport: the reply is taken, the status byte
compared, what follows is emitted, and the command is complete. -/
theorem ticks_of_fed {s : State} (hb : s.busy = true) (hs : s.settle = 0) (ht : s.todo = [.receive])
    (hr : 9 ≤ s.rx.length) (n : Nat) :
    ticks (n + 16) s =
      { s with
        trace := s.trace ++ [Event.rx (s.rx.take 9)] ++ Safety.remaining (afterStatus (replyByte (s.rx.take 9)))
        rx := s.rx.drop 9 }.atRest := by
  have h1 : tick (tick s) =
      { s with
        trace := s.trace ++ [.rx (s.rx.take 9)]
        rx := s.rx.drop 9
        rxcount := 0
        todo := afterStatus (replyByte (s.rx.take 9)) ++ [] } := by
    rw [tick_of_busy hb hs]
    simp [perform, ht, receiveOne, replyLen, Nat.not_lt.mpr hr, tick, hb, hs]
  obtain ⟨k, hk⟩ : ∃ k, n + 14 = ((afterStatus (replyByte (s.rx.take 9))).map moves).sum + (k + 1) :=
    ⟨n + 13 - ((afterStatus (replyByte (s.rx.take 9))).map moves).sum, by
      have := sum_moves_afterStatus_le (replyByte (s.rx.take 9)); omega⟩
  rw [show n + 16 = (n + 14) + 1 + 1 from rfl, ticks_succ, ticks_succ, h1, hk, ticks_add,
    ticks_emitting _ [] (emitsOnly_of_mem_afterStatus _) _ (by exact hb) (by exact hs) rfl]
  exact ticks_of_done (s := { s with
      trace := s.trace ++ [Event.rx (s.rx.take 9)] ++ Safety.remaining (afterStatus (replyByte (s.rx.take 9)))
      rx := s.rx.drop 9, rxcount := 0, todo := [] }) hb hs rfl k

/-! ### Running on -/

/-- A command of emitting actions completes, and emits exactly its events. -/
theorem runOn_emitting {s : State} (hb : s.busy = true) (hs : s.settle = 0)
    (hp : ∀ a ∈ s.todo, Safety.emitsOnly a = true) :
    runOn s = { s with trace := s.trace ++ Safety.remaining s.todo }.atRest := by
  rw [runOn, movesLeft, Nat.add_comm, ticks_add,
    ticks_emitting s.todo [] hp s hb hs (List.append_nil _).symm]
  exact ticks_of_done (s := { s with trace := s.trace ++ Safety.remaining s.todo, todo := [] }) hb hs rfl 1

/-- A command of emitting actions and then a receive, with too few bytes in the transport: it emits its
events and waits. -/
theorem runOn_starved {s : State} (hb : s.busy = true) (hs : s.settle = 0) (l : List Action)
    (ht : s.todo = l ++ [.receive]) (hp : ∀ a ∈ l, Safety.emitsOnly a = true) (hr : s.rx.length < 9) :
    runOn s = { s with trace := s.trace ++ Safety.remaining l, todo := [.receive] } := by
  have hm : movesLeft s = (l.map moves).sum + 17 := by simp [movesLeft, ht, moves]; omega
  rw [runOn, hm, ticks_add, ticks_emitting l [.receive] hp s hb hs ht]
  exact ticks_of_starved (by exact hb) (by exact hs) rfl (by exact hr) 17

/-- The same with nine bytes in the transport: it completes. -/
theorem runOn_fed {s : State} (hb : s.busy = true) (hs : s.settle = 0) (l : List Action)
    (ht : s.todo = l ++ [.receive]) (hp : ∀ a ∈ l, Safety.emitsOnly a = true) (hr : 9 ≤ s.rx.length) :
    runOn s =
      { s with
        trace := s.trace ++ Safety.remaining l ++ [Event.rx (s.rx.take 9)] ++
          Safety.remaining (afterStatus (replyByte (s.rx.take 9)))
        rx := s.rx.drop 9 }.atRest := by
  have hm : movesLeft s = (l.map moves).sum + (1 + 16) := by simp [movesLeft, ht, moves]; omega
  rw [runOn, hm, ticks_add, ticks_emitting l [.receive] hp s hb hs ht]
  exact ticks_of_fed (by exact hb) (by exact hs) rfl (by exact hr) 1

/-- Running on writes neither CRUISE, nor what the host presents, nor the codec result. -/
theorem runOn_frame (s : State) :
    (runOn s).cruise = s.cruise ∧ (runOn s).pending = s.pending ∧ (runOn s).built = s.built :=
  ticks_frame _ s

/-! ### Acceptance -/

theorem whenIdle_of_busy {s : State} (h : s.busy = true) (f : State → State) : whenIdle f s = .next s := by
  simp [whenIdle, h]

theorem whenIdle_of_idle {s : State} (h : s.busy = false) (f : State → State) :
    whenIdle f s = .next (f s) := by
  simp [whenIdle, h]

/-- Everything a command of emitting actions can do. -/
theorem runCommand_emitting (i : Instr) (l : List Action) (hp : ∀ a ∈ l, Safety.emitsOnly a = true) (s : State)
    (hb : s.busy = false) :
    runCommand i l s = .next { s with trace := s.trace ++ Safety.remaining l }.atRest := by
  rw [runCommand, whenIdle_of_idle hb, runOn_emitting (s := accept i l s) rfl rfl hp]
  rfl

theorem emitsOnly_of_mem_append {l m : List Action} (hl : ∀ a ∈ l, Safety.emitsOnly a = true)
    (hm : ∀ a ∈ m, Safety.emitsOnly a = true) : ∀ a ∈ l ++ m, Safety.emitsOnly a = true := by
  intro a ha
  rw [List.mem_append] at ha
  exact ha.elim (hl a) (hm a)

theorem emitsOnly_of_mem_write1 (a d : Byte) : ∀ x ∈ write1 a d, Safety.emitsOnly x = true :=
  emitsOnly_of_mem_transmit _

theorem emitsOnly_of_mem_write3 (a d0 d1 d2 : Byte) : ∀ x ∈ write3 a d0 d1 d2, Safety.emitsOnly x = true :=
  emitsOnly_of_mem_transmit _

theorem emitsOnly_of_mem_quadrants (mask : BitVec 4) (color : BitVec 24) (l : List Nat) :
    ∀ a ∈ l.flatMap (quadrantActions mask color), Safety.emitsOnly a = true := by
  intro a ha
  obtain ⟨i, -, hi⟩ := List.mem_flatMap.mp ha
  unfold quadrantActions at hi
  split at hi
  · exact emitsOnly_of_mem_write3 _ _ _ _ a hi
  · simp at hi

/-! ### The fetch and the step -/

theorem fetch_cons {s : State} {o : Offer} {rest : List Offer} (h : s.pending = o :: rest) :
    fetch s = some (o, { s with pending := rest }) := by
  simp [fetch, h]

theorem fetch_nil {s : State} (h : s.pending = []) : fetch s = none := by simp [fetch, h]

/-- Everything a step can do: go on with a command in progress; idle; run what stands at the port;
refuse what no decoder reads. -/
theorem step_cases (s : State) :
    (s.busy = true ∧ step s = .next (runOn s)) ∨
    (s.busy = false ∧ s.pending = [] ∧ step s = .next s) ∨
    (s.busy = false ∧ ∃ o rest i, s.pending = o :: rest ∧ decode o = .ok i ∧
      step s = exec i { s with pending := rest }) ∨
    (s.busy = false ∧ ∃ o rest r, s.pending = o :: rest ∧ decode o = .error r ∧
      step s = .refused (refuse r)) := by
  cases hb : s.busy with
  | true => exact .inl ⟨rfl, by simp [step, hb]⟩
  | false =>
    cases hp : s.pending with
    | nil => exact .inr (.inl ⟨rfl, rfl, by simp [step, hb, fetch_nil hp]⟩)
    | cons o rest =>
      cases hd : decode o with
      | ok i => exact .inr (.inr (.inl ⟨rfl, o, rest, i, rfl, hd, by simp [step, hb, fetch_cons hp, hd]⟩))
      | error r =>
        exact .inr (.inr (.inr ⟨rfl, o, rest, r, rfl, hd, by simp [step, hb, fetch_cons hp, hd]⟩))

end Sys2Proof.Machine
end

