-- ==== Sys2Proof/Laws/PerInstr.lean ====
section
/-! SUPPORT. A statement about every instruction as syntax, one lemma per constructor: its encoding is
one of its row of spec/opcode_table.json. -/

namespace Sys2Proof.Laws

open Sys2Proof.Machine

/-- The encoding of `i` is a word its row of the table selects (30_encoding.md R55), or, for a codec
encoder, a frame with the row's fixed bytes, the operands at their offsets and the row's length
(R46 to R48). -/
def MatchesRow.Statement : Instr → Prop
  | .init => ∃ w, encode .init = .command w ∧ selectsRow 0x00000000 0xFFFFFFFF w = true
  | .height h => ∃ w, encode (.height h) = .command w ∧ selectsRow 0x10000000 0xFFFFFF00 w = true
  | .lean a => ∃ w, encode (.lean a) = .command w ∧ selectsRow 0x20000000 0xFFFFFF00 w = true
  | .move dir s => ∃ w, encode (.move dir s) = .command w ∧ selectsRow 0x30000000 0xFEFFFF00 w = true
  | .rotate dir s => ∃ w, encode (.rotate dir s) = .command w ∧ selectsRow 0x40000000 0xFEFFFF00 w = true
  | .stop => ∃ w, encode .stop = .command w ∧ selectsRow 0x50000000 0xFFFFFFFF w = true
  | .led mask color => ∃ w, encode (.led mask color) = .command w ∧ selectsRow 0x60000000 0xF0000000 w = true
  | .setspd p => ∃ w, encode (.setspd p) = .command w ∧ selectsRow 0x70000000 0xFFFFFF00 w = true
  | .turn dir => ∃ w, encode (.turn dir) = .command w ∧ selectsRow 0x80000000 0xFEFFFFFF w = true
  | .ride dir => ∃ w, encode (.ride dir) = .command w ∧ selectsRow 0x90000000 0xFEFFFFFF w = true
  | .encWrite a d => ∃ c, encode (.encWrite a d) = .codec [0x55, 0x00, 0x09, 0x00, a, d, c, 0x00, 0xAA]
  | .encWrite3 a d0 d1 d2 =>
    ∃ c, encode (.encWrite3 a d0 d1 d2) = .codec [0x55, 0x00, 0x0B, 0x00, a, d0, d1, d2, c, 0x00, 0xAA]
  | .encRead a n => ∃ c, encode (.encRead a n) = .codec [0x55, 0x00, 0x09, 0x02, a, n, c, 0x00, 0xAA]

theorem MatchesRow.init : MatchesRow.Statement .init := ⟨_, rfl, rfl⟩

theorem MatchesRow.height (h : Int) : MatchesRow.Statement (.height h) :=
  ⟨_, rfl, selects_height.mpr ⟨rfl, rfl, rfl⟩⟩

theorem MatchesRow.lean (a : Int) : MatchesRow.Statement (.lean a) :=
  ⟨_, rfl, selects_lean.mpr ⟨rfl, rfl, rfl⟩⟩

theorem MatchesRow.move (dir : MoveDir) (s : Int) : MatchesRow.Statement (.move dir s) :=
  ⟨_, rfl, selects_move.mpr ⟨rfl, moveDirField_and dir, rfl⟩⟩

theorem MatchesRow.rotate (dir : RotDir) (s : Int) : MatchesRow.Statement (.rotate dir s) :=
  ⟨_, rfl, selects_rotate.mpr ⟨rfl, rotDirField_and dir, rfl⟩⟩

theorem MatchesRow.stop : MatchesRow.Statement .stop := ⟨_, rfl, rfl⟩

theorem MatchesRow.led (mask : BitVec 4) (color : BitVec 24) : MatchesRow.Statement (.led mask color) :=
  ⟨_, rfl, selects_led.mpr rfl⟩

theorem MatchesRow.setspd (p : Int) : MatchesRow.Statement (.setspd p) :=
  ⟨_, rfl, selects_setspd.mpr ⟨rfl, rfl, rfl⟩⟩

theorem MatchesRow.turn (dir : RotDir) : MatchesRow.Statement (.turn dir) :=
  ⟨_, rfl, selects_turn.mpr ⟨rfl, rotDirField_and dir, rfl, rfl⟩⟩

theorem MatchesRow.ride (dir : MoveDir) : MatchesRow.Statement (.ride dir) :=
  ⟨_, rfl, selects_ride.mpr ⟨rfl, moveDirField_and dir, rfl, rfl⟩⟩

theorem MatchesRow.encWrite (a d : Byte) : MatchesRow.Statement (.encWrite a d) := ⟨_, rfl⟩

theorem MatchesRow.encWrite3 (a d0 d1 d2 : Byte) : MatchesRow.Statement (.encWrite3 a d0 d1 d2) := ⟨_, rfl⟩

theorem MatchesRow.encRead (a n : Byte) : MatchesRow.Statement (.encRead a n) := ⟨_, rfl⟩

end Sys2Proof.Laws
end

