-- ==== Sys2Proof/Tests/Slice0.lean ====
section
/-! SUPPORT. Tests, and a witness for the hypotheses of each statement that has some. Expected values come
from 95_test_vectors.md (the section is named), or from the encodings of 30_encoding.md. -/

namespace Sys2Proof.Tests

open Sys2Proof Sys2Proof.Machine

/-! ### WellFormed: each check refuses a term, and keeps its boundary -/

theorem test_height_below_byte : (Instr.height (-129)).isWellFormed = false := by decide
theorem test_lean_above_byte : (Instr.lean 128).isWellFormed = false := by decide
theorem test_move_above_byte : (Instr.move .forward 128).isWellFormed = false := by decide
theorem test_rotate_below_byte : (Instr.rotate .clockwise (-129)).isWellFormed = false := by decide
theorem test_setspd_above_byte : (Instr.setspd 128).isWellFormed = false := by decide
theorem test_boundaries_wellFormed :
    (Instr.height (-128)).WellFormed ∧ (Instr.lean 127).WellFormed ∧ (Instr.move .backward (-128)).WellFormed ∧
    (Instr.rotate .counterClockwise 127).WellFormed ∧ (Instr.setspd (-128)).WellFormed := by decide

/-! ### Decoding: words written out from the fields op, m, hi, v of 30_encoding.md R54, R55 -/

theorem test_decode_init : decodeTableWord 32 0x00000000 = some .init := by decide
theorem test_decode_height : decodeTableWord 32 0x100000EC = some (.height (-20)) := by decide
theorem test_decode_lean : decodeTableWord 32 0x200000A6 = some (.lean (-90)) := by decide
theorem test_decode_move_forward : decodeTableWord 32 0x3000005B = some (.move .forward 91) := by decide
theorem test_decode_move_backward : decodeTableWord 32 0x31000063 = some (.move .backward 99) := by decide
theorem test_decode_rotate_clockwise : decodeTableWord 32 0x40000080 = some (.rotate .clockwise (-128)) := by
  decide
theorem test_decode_rotate_counter : decodeTableWord 32 0x410000CE = some (.rotate .counterClockwise (-50)) := by
  decide
theorem test_decode_stop : decodeTableWord 32 0x50000000 = some .stop := by decide
theorem test_decode_led : decodeTableWord 32 0x6C0000FF = some (.led 0b1100 0x0000FF) := by decide
theorem test_decode_setspd : decodeTableWord 32 0x7000004B = some (.setspd 75) := by decide
theorem test_decode_turn : decodeTableWord 32 0x81000000 = some (.turn .counterClockwise) := by decide
theorem test_decode_ride : decodeTableWord 32 0x91000000 = some (.ride .backward) := by decide

/-- Section 2.4, row 5; the bytes in transmission order. -/
theorem test_decode_encWrite :
    decode (.codec [0x55, 0x00, 0x09, 0x00, 0x3E, 0xFF, 0xB9, 0x00, 0xAA]) = .ok (.encWrite 0x3E 0xFF) := by decide

/-- Section 2.4, row 17. -/
theorem test_decode_encWrite3 :
    decode (.codec [0x55, 0x00, 0x0B, 0x00, 0x6C, 0x12, 0x34, 0x56, 0xEC, 0x00, 0xAA]) =
      .ok (.encWrite3 0x6C 0x12 0x34 0x56) := by decide

/-- Section 2.4, row 10. -/
theorem test_decode_encRead :
    decode (.codec [0x55, 0x00, 0x09, 0x02, 0x02, 0x01, 0xF1, 0x00, 0xAA]) = .ok (.encRead 0x02 0x01) := by decide

/-- A frame as one number, offset 0 in bits 7..0 (log entry 15). -/
theorem test_decode_table_frame : decodeTableWord 72 0xAA00B9FF3E00090055 = some (.encWrite 0x3E 0xFF) := by decide

theorem test_reject_bad_checksum :
    decode (.codec [0x55, 0x00, 0x09, 0x00, 0x3E, 0xFF, 0xB8, 0x00, 0xAA]) =
      .error (.notAFrame [0x55, 0x00, 0x09, 0x00, 0x3E, 0xFF, 0xB8, 0x00, 0xAA]) := by decide

/-- Section 2.8. -/
theorem test_reserved_words :
    decodeTableWord 32 0xA0000000 = none ∧ decodeTableWord 32 0xFFFFFFFF = none ∧
    decodeTableWord 32 0x00000001 = none ∧ decodeTableWord 32 0x10000100 = none ∧
    decodeTableWord 32 0x32000000 = none ∧ decodeTableWord 32 0x50000080 = none ∧
    decodeTableWord 32 0x80000001 = none := by decide

/-! ### The assembler (30_encoding.md R63, R64; section 2.6) -/

theorem test_assemble_led_binary : assemble "LED 0b0011, 0x123456" = some (.led 3 0x123456) := by decide
theorem test_assemble_stretch : assemble "STRETCH 15" = some (.height 15) := by decide
theorem test_assemble_shrink : assemble "SHRINK 20" = some (.height (-20)) := by decide
theorem test_assemble_out_of_byte : assemble "HEIGHT 128" = none := by decide
theorem test_assemble_unknown : assemble "TURN FWD" = none := by decide

/-! ### Arithmetic (sections 2.1 to 2.3) -/

theorem test_remap100 :
    [-100, -99, -50, -21, -10, -1, 0, 1, 40, 97, 100].map remap100 =
      [0, 1, 64, 101, 115, 126, 128, 129, 179, 251, 255] := by decide
theorem test_remap20 : [-20, -19, -8, -1, 0, 8, 10, 20].map remap20 = [0, 6, 77, 121, 128, 179, 191, 255] := by decide
theorem test_rsqrt_thresholds :
    [0, 1, 2, 3, 6, 7, 12, 13, 90, 91, 100].map rsqrt = [0, 1, 1, 2, 2, 3, 3, 4, 9, 10, 10] := by decide
theorem test_bwd : [0, 1, 2, 3, 50, 97, 98, 99, 100].map bwd = [2, 3, 0, 1, 48, 99, 96, 97, 100] := by decide

/-! ### One step of each instruction, from reset with its word at the port -/

/-- The reset state with these bytes in the transport. -/
def fed (bytes : List Byte) : State := { State.reset with rx := bytes }

/-- The state a step from `s` reaches with this table word at the port. -/
def after (s : State) (nbits w : Nat) : Option State :=
  match step (s.withFetchWord nbits w) with
  | .next t => some t
  | .fault _ => none
  | .refused _ => none

/-- What the step emits. -/
def emitted (s : State) (nbits w : Nat) : Option (List Event) := (after s nbits w).map State.trace

/-- Section 2.7, row 1: status 0x00. -/
theorem test_init_active :
    emitted (fed [0x55, 0x00, 0x09, 0x02, 0x02, 0x00, 0xF2, 0x00, 0xAA]) 32 0x00000000 =
      some (Safety.sent [0x55, 0x00, 0x09, 0x02, 0x02, 0x01, 0xF1, 0x00, 0xAA] ++
        [.rx [0x55, 0x00, 0x09, 0x02, 0x02, 0x00, 0xF2, 0x00, 0xAA]]) := by decide +kernel

/-- Section 2.7, row 3: status 0xFF. -/
theorem test_init_trigger :
    emitted (fed [0x00, 0x00, 0x00, 0x00, 0x00, 0xFF, 0x00, 0x00, 0x00]) 32 0x00000000 =
      some (Safety.sent [0x55, 0x00, 0x09, 0x02, 0x02, 0x01, 0xF1, 0x00, 0xAA] ++
        [.rx [0x00, 0x00, 0x00, 0x00, 0x00, 0xFF, 0x00, 0x00, 0x00]] ++
        Safety.sent [0x55, 0x00, 0x09, 0x00, 0x3E, 0xFF, 0xB9, 0x00, 0xAA] ++ [.wait 1000]) := by decide +kernel

/-- Section 2.7, row 6: five bytes and nothing more. -/
theorem test_init_stuck :
    (after (fed [0x55, 0x00, 0x09, 0x02, 0x02]) 32 0x00000000).map (fun t => (t.busy, t.trace, t.rx)) =
      some (true, Safety.sent [0x55, 0x00, 0x09, 0x02, 0x02, 0x01, 0xF1, 0x00, 0xAA],
        [0x55, 0x00, 0x09, 0x02, 0x02]) := by decide +kernel

/-- Section 2.6, `HEIGHT 8`: a half case. -/
theorem test_height_half : emitted State.reset 32 0x10000008 =
    some (Safety.sent [0x55, 0x00, 0x09, 0x00, 0x35, 0xB3, 0x0E, 0x00, 0xAA]) := by decide +kernel

/-- Section 2.6, `HEIGHT -128`: clamped. -/
theorem test_height_clamped : emitted State.reset 32 0x10000080 =
    some (Safety.sent [0x55, 0x00, 0x09, 0x00, 0x35, 0x00, 0xC1, 0x00, 0xAA]) := by decide +kernel

/-- Section 2.6, `LEAN -40`: a half case. -/
theorem test_lean_half : emitted State.reset 32 0x200000D8 =
    some (Safety.sent [0x55, 0x00, 0x09, 0x00, 0x36, 0x4D, 0x73, 0x00, 0xAA]) := by decide +kernel

/-- Section 2.6, `MOVE FWD, 50`. -/
theorem test_move_forward : emitted State.reset 32 0x30000032 =
    some (Safety.sent [0x55, 0x00, 0x09, 0x00, 0x30, 0x77, 0x4F, 0x00, 0xAA]) := by decide +kernel

/-- Section 2.6, `MOVE BWD, 99`: conflict C1. -/
theorem test_move_backward : emitted State.reset 32 0x31000063 =
    some (Safety.sent [0x55, 0x00, 0x09, 0x00, 0x30, 0xFB, 0xCB, 0x00, 0xAA]) := by decide +kernel

/-- Section 2.6, `ROTATE CW, -128`: clamped, then negated. -/
theorem test_rotate_clamped : emitted State.reset 32 0x40000080 =
    some (Safety.sent [0x55, 0x00, 0x09, 0x00, 0x32, 0xFF, 0xC5, 0x00, 0xAA]) := by decide +kernel

/-- Section 2.6, `ROTATE CCW, 1`. -/
theorem test_rotate_counter : emitted State.reset 32 0x41000001 =
    some (Safety.sent [0x55, 0x00, 0x09, 0x00, 0x32, 0x81, 0x43, 0x00, 0xAA]) := by decide +kernel

/-- Section 2.6, `STOP`. -/
theorem test_stop : emitted State.reset 32 0x50000000 =
    some (Safety.sent [0x55, 0x00, 0x09, 0x00, 0x30, 0x80, 0x46, 0x00, 0xAA] ++
      Safety.sent [0x55, 0x00, 0x09, 0x00, 0x32, 0x80, 0x44, 0x00, 0xAA]) := by decide +kernel

/-- Section 2.6, `LED 0xC, 0x0000FF`. -/
theorem test_led_right_pair : emitted State.reset 32 0x6C0000FF =
    some (Safety.sent [0x55, 0x00, 0x0B, 0x00, 0x6B, 0x00, 0x00, 0xFF, 0x8A, 0x00, 0xAA] ++
      Safety.sent [0x55, 0x00, 0x0B, 0x00, 0x6C, 0x00, 0x00, 0xFF, 0x89, 0x00, 0xAA]) := by decide +kernel

/-- Section 2.6, `LED 0x0, 0xFFFFFF`. -/
theorem test_led_none : emitted State.reset 32 0x60FFFFFF = some [] := by decide +kernel

/-- Section 2.7, `SETSPD 101` and `SETSPD -1`. -/
theorem test_setspd :
    (after State.reset 32 0x70000065).map (fun t => (t.cruise, t.trace)) = some (100, []) ∧
    (after State.reset 32 0x700000FF).map (fun t => (t.cruise, t.trace)) = some (0, []) := by decide +kernel

/-- Section 2.6, `TURN CW`: conflict C2, decision D12. -/
theorem test_turn : emitted State.reset 32 0x80000000 =
    some (Safety.sent [0x55, 0x00, 0x09, 0x00, 0x32, 0x80, 0x44, 0x00, 0xAA] ++
      Safety.sent [0x55, 0x00, 0x09, 0x00, 0x32, 0x40, 0x84, 0x00, 0xAA]) := by decide +kernel

/-- Section 2.6, `RIDE FWD`. -/
theorem test_ride_forward : emitted State.reset 32 0x90000000 =
    some (Safety.sent [0x55, 0x00, 0x09, 0x00, 0x32, 0x80, 0x44, 0x00, 0xAA] ++
      Safety.sent [0x55, 0x00, 0x09, 0x00, 0x30, 0x77, 0x4F, 0x00, 0xAA]) := by decide +kernel

/-- Section 3, P3: `RIDE BWD` with CRUISE 0 sends 130. -/
theorem test_ride_backward_zero : emitted { State.reset with cruise := 0 } 32 0x91000000 =
    some (Safety.sent [0x55, 0x00, 0x09, 0x00, 0x32, 0x80, 0x44, 0x00, 0xAA] ++
      Safety.sent [0x55, 0x00, 0x09, 0x00, 0x30, 0x82, 0x44, 0x00, 0xAA]) := by decide +kernel

/-- Section 2.4, rows 2 and 3: `ENC_WRITE` checksums 0x00 and 0xFF. -/
theorem test_encWrite : encWriteFrame 0xF6 0x00 = [0x55, 0x00, 0x09, 0x00, 0xF6, 0x00, 0x00, 0x00, 0xAA] ∧
    encWriteFrame 0xF7 0x00 = [0x55, 0x00, 0x09, 0x00, 0xF7, 0x00, 0xFF, 0x00, 0xAA] := by decide

/-- Section 2.4, rows 18 and 19. -/
theorem test_encWrite3 :
    encWrite3Frame 0xFF 0xFF 0xFF 0xFF = [0x55, 0x00, 0x0B, 0x00, 0xFF, 0xFF, 0xFF, 0xFF, 0xF8, 0x00, 0xAA] ∧
    encWrite3Frame 0xF5 0x00 0x00 0x00 = [0x55, 0x00, 0x0B, 0x00, 0xF5, 0x00, 0x00, 0x00, 0xFF, 0x00, 0xAA] := by
  decide

/-- Section 2.4, rows 11 and 12. -/
theorem test_encRead : encReadFrame 0x00 0x00 = [0x55, 0x00, 0x09, 0x02, 0x00, 0x00, 0xF4, 0x00, 0xAA] ∧
    encReadFrame 0xFF 0xFF = [0x55, 0x00, 0x09, 0x02, 0xFF, 0xFF, 0xF6, 0x00, 0xAA] := by decide

/-- The three encoders as steps: the frame returned is the one offered, and nothing is emitted. -/
theorem test_encoders_step :
    (after State.reset 72 0xAA00B9FF3E00090055).map (fun t => (t.built, t.trace)) =
      some (some [0x55, 0x00, 0x09, 0x00, 0x3E, 0xFF, 0xB9, 0x00, 0xAA], []) := by decide +kernel

/-! ### Steps without an instruction -/

theorem test_idle_step : step State.reset = .next State.reset := rfl
theorem test_reserved_step : step (State.reset.withFetchWord 32 0xA0000000) =
    .refused (.reservedWord 0xA0000000) := rfl
theorem test_reset_from_idle : State.assertReset { State.reset with cruise := 7 } = .next State.reset := rfl

/-! ### Witnesses: states and operands that meet the hypotheses of the statements -/

/-- A block that runs these actions for INIT. -/
def running (todo : List Action) (bytes : List Byte) : State :=
  { State.reset with busy := true, cmd := some .init, todo := todo, rx := bytes }

/-- A block in INIT's read, the read request sent, with these bytes in the transport. -/
def waiting (bytes : List Byte) : State :=
  { running [.receive] bytes with trace := Safety.sent (encReadFrame 0x02 1) }

/-- A reply of nine bytes with this status. -/
def reply (st : Byte) : List Byte := [0x55, 0x00, 0x09, 0x02, 0x02, st, 0xF2, 0x00, 0xAA]

/-- The hypothesis of every result statement but INIT's, and of `StepRunsTheDecodedInstruction`'s second clause. -/
theorem test_witness_idle : State.reset.busy = false ∧ State.reset.pending = [] ∧ Safety.Idle State.reset := by
  decide

theorem test_witness_decodeOfEncode : Instr.WellFormed (.height (-128)) ∧ Instr.WellFormed (.setspd 127) := by decide

theorem test_witness_encodeOfDecode : decode (.command 0x310000FF) = .ok (.move .backward (-1)) := by decide

/-- One reserved word for each clause of `ReservedWordsAreRejected`, at the least bit of each field. -/
theorem test_witness_reservedWords :
    ((0xA0000000 : CommandWord).extractLsb' 28 4).toNat ≥ 10 ∧
    (((0x50000001 : CommandWord).extractLsb' 28 4).toNat = 5 ∧ (0x50000001 : CommandWord).extractLsb' 0 28 ≠ 0) ∧
    (((0x70000100 : CommandWord).extractLsb' 28 4).toNat = 7 ∧ (0x70000100 : CommandWord).extractLsb' 8 20 ≠ 0) ∧
    (((0x42000000 : CommandWord).extractLsb' 28 4).toNat = 4 ∧ (0x42000000 : CommandWord).extractLsb' 25 3 ≠ 0) ∧
    (((0x30000100 : CommandWord).extractLsb' 28 4).toNat = 3 ∧ (0x30000100 : CommandWord).extractLsb' 8 16 ≠ 0) ∧
    (((0x98000000 : CommandWord).extractLsb' 28 4).toNat = 9 ∧ (0x98000000 : CommandWord).extractLsb' 25 3 ≠ 0) ∧
    (((0x80800000 : CommandWord).extractLsb' 28 4).toNat = 8 ∧ (0x80800000 : CommandWord).extractLsb' 0 24 ≠ 0) := by
  decide

/-- Sums of 256 and of 255. -/
theorem test_witness_checksum :
    (([0x09, 0x00, 0xF7, 0x00] : List Byte).map BitVec.toNat).sum % 256 = 0 ∧
    (([0x09, 0x00, 0xF6, 0x00] : List Byte).map BitVec.toNat).sum % 256 = 255 ∧ 8 ≤ 8 := by decide

theorem test_witness_permuted : List.Perm [(0xFF : Byte), 0x00, 0x01] [0x01, 0xFF, 0x00] := by decide

/-- Each case of the clamp at its boundary. -/
theorem test_witness_clamp :
    (-20 : Int) ≤ 20 ∧ (-21 : Int) < -20 ∧ (20 : Int) < 21 ∧ (-20 : Int) ≤ -20 ∧ (20 : Int) ≤ 20 ∧
    clamp (-21) (-20) 20 = -20 ∧ clamp 21 (-20) 20 = 20 ∧ clamp (-20) (-20) 20 = -20 ∧ clamp 20 (-20) 20 = 20 := by
  decide

/-- The ends of the domains of the remaps and their successors. -/
theorem test_witness_domains :
    (-100 : Int) ≤ -100 ∧ (-100 : Int) < 100 ∧ (100 : Int) ≤ 100 ∧ (99 : Int) < 100 ∧
    (-20 : Int) ≤ -20 ∧ (-20 : Int) < 20 ∧ (20 : Int) ≤ 20 ∧ (19 : Int) < 20 := by decide

/-- The ends of the domain of the speed transforms, and a band of `rsqrt` at both ends. -/
theorem test_witness_speeds :
    (0 : Int) ≤ 0 ∧ (100 : Int) ≤ 100 ∧ (100 : Nat) ≤ 100 ∧ rsqrt 91 = 10 ∧ rsqrt 90 = 9 ∧ rsqrt 1 = 1 := by decide

/-- Speeds with bit 1 clear and set. -/
theorem test_witness_xor : xor2 0 = 2 ∧ xor2 1 = 3 ∧ xor2 2 = 0 ∧ xor2 3 = 1 ∧ xor2 100 = 102 := by decide

/-- `TransmitEmitsFrameThenSettles` and `WriteTransactionsSendOneFrame`. -/
theorem test_witness_transactions :
    ((running (transmit (encWriteFrame 0x30 0x80) ++ []) []).busy = true ∧
      (running (transmit (encWriteFrame 0x30 0x80) ++ []) []).settle = 0 ∧ 9 ≤ (encWriteFrame 0x30 0x80).length) ∧
    (running (write1 0x32 0x80) []).todo = write1 0x32 0x80 ∧
    (running (write3 0x6C 0x12 0x34 0x56) []).todo = write3 0x6C 0x12 0x34 0x56 := by decide +kernel

/-- `ReceiveTakesNineBytes`: eight bytes, and nine. -/
theorem test_witness_receive :
    ((waiting ((reply 0).take 8)).todo = .receive :: [] ∧ (waiting ((reply 0).take 8)).settle = 0 ∧
      (waiting ((reply 0).take 8)).rx.length < 9) ∧
    (waiting (reply 0x7F)).rx = 0x55 :: 0x00 :: 0x09 :: 0x02 :: 0x02 :: 0x7F :: 0xF2 :: 0x00 :: 0xAA :: [] := by
  decide

/-- `EmittedPlusRemainingIsConstant`, `MovesOnlyExtendTheTrace`. -/
theorem test_witness_emitting : (∀ a ∈ write1 0x30 0x80, Safety.emitsOnly a = true) ∧ 3 ≤ 5 := by decide

/-- RIDE and TURN: an idle block with a CRUISE at both ends. -/
theorem test_witness_cruise :
    ({ State.reset with cruise := 100 } : State).cruise ≤ 100 ∧ ({ State.reset with cruise := 100 } : State).busy = false ∧
    ({ State.reset with cruise := 0 } : State).cruise ≤ 100 := by decide

/-- The ranges of `SetspdStoresClampedSpeed`. -/
theorem test_witness_setspd : (-1 : Int) < 0 ∧ (100 : Int) < 101 ∧ (0 : Int) ≤ 0 ∧ (100 : Int) ≤ 100 := by decide

/-- `InitReadsStatusAndTriggers` with both kinds of status, and with a tenth byte. -/
theorem test_witness_init_fed :
    (fed (reply 0x00)).busy = false ∧
    (fed (reply 0x00)).rx = 0x55 :: 0x00 :: 0x09 :: 0x02 :: 0x02 :: 0x00 :: 0xF2 :: 0x00 :: 0xAA :: [] ∧
    (fed (reply 0x01 ++ [0x99])).rx =
      0x55 :: 0x00 :: 0x09 :: 0x02 :: 0x02 :: 0x01 :: 0xF2 :: 0x00 :: 0xAA :: [0x99] := by decide

/-- `InitWaitsForNineBytes`: eight bytes. -/
theorem test_witness_init_starved : (fed ((reply 0).take 8)).busy = false ∧ (fed ((reply 0).take 8)).rx.length < 9 := by
  decide

/-- `InstructionFrames` and `OnlyRideAndTurnReadCruise`: an instruction that answers a next state. -/
theorem test_witness_frames : exec .stop (running [] []) = .next (running [] []) ∧
    exec (.encWrite 1 2) State.reset = .next { State.reset with built := some (encWriteFrame 1 2) } := ⟨rfl, rfl⟩

theorem test_witness_not_cruise_readers :
    (∀ dir, Instr.stop ≠ .ride dir) ∧ (∀ dir, Instr.stop ≠ .turn dir) ∧ (∀ p, Instr.stop ≠ .setspd p) :=
  ⟨nofun, nofun, nofun⟩

/-- `OnlyTheStatusByteMatters`: two replies that differ everywhere but at offset 5, and both INITs complete. -/
theorem test_witness_replies :
    (reply 0x00).length = 9 ∧ ([1, 2, 3, 4, 5, 0, 7, 8, 9] : List Byte).length = 9 ∧
    (reply 0x00).getD 5 0 = ([1, 2, 3, 4, 5, 0, 7, 8, 9] : List Byte).getD 5 0 ∧
    (emitted (fed (reply 0x00)) 32 0).isSome = true ∧ (emitted (fed [1, 2, 3, 4, 5, 0, 7, 8, 9]) 32 0).isSome = true := by
  decide +kernel

/-- `CommandDelays`: both kinds of status, a starved INIT at eight bytes, and the masks with no bit and with all. -/
theorem test_witness_delays :
    (fed (reply 0x00)).busy = false ∧ 9 ≤ (fed (reply 0x00)).rx.length ∧ (fed (reply 0x00)).rx.getD 5 0 = 0x00 ∧
    (fed (reply 0x01)).rx.getD 5 0 ≠ 0x00 ∧ (fed ((reply 0).take 8)).rx.length < 9 ∧
    0 = ((0 : BitVec 4).getLsbD 0).toNat + ((0 : BitVec 4).getLsbD 1).toNat + ((0 : BitVec 4).getLsbD 2).toNat +
      ((0 : BitVec 4).getLsbD 3).toNat ∧
    4 = ((0xF : BitVec 4).getLsbD 0).toNat + ((0xF : BitVec 4).getLsbD 1).toNat + ((0xF : BitVec 4).getLsbD 2).toNat +
      ((0xF : BitVec 4).getLsbD 3).toNat := by decide

/-- `EveryInstructionCompletesOrWaits`: a state that is not busy and yet not idle, beside `test_witness_idle`. -/
theorem test_witness_not_busy :
    ({ State.reset with todo := [.receive] } : State).busy = false ∧
    ¬ Safety.Idle { State.reset with todo := [.receive] } := by decide

theorem test_witness_busy : (waiting []).busy = true := rfl

/-- `StepRunsTheDecodedInstruction`: at the port, and placed. -/
theorem test_witness_step :
    (State.reset.present (.command 0x50000000)).pending = [.command 0x50000000] ∧
    decode (.command 0x50000000) = .ok .stop ∧ decodeTableWord 88 0xAA00EC5634126C000B0055 =
      some (.encWrite3 0x6C 0x12 0x34 0x56) := by decide

/-- Both clauses of `StepRefusesOnlyWhatDoesNotDecode`. -/
theorem test_witness_refused :
    decode (.command 0x32000000) = .error (.reservedWord 0x32000000) ∧
    decode (.codec [0x55]) = .error (.notAFrame [0x55]) := by decide

/-- `StuckBlockStays`, at eight bytes. -/
theorem test_witness_stuck : Safety.Stuck (waiting ((reply 0).take 8)) := by decide

/-- `ReceiveBytesLiftTheBlock`: the ninth byte arrives. -/
theorem test_witness_lift :
    Safety.Waiting (waiting ((reply 0).take 8)) ∧ 9 ≤ ((waiting ((reply 0).take 8)).rx ++ [0xAA]).length := by decide

/-- The invariant at reset, and in a block that waits. -/
theorem test_witness_inv : Safety.Inv State.reset ∧ Safety.Inv (waiting []) :=
  ⟨⟨by decide, .inl (by decide), ⟨[], nofun, rfl⟩, nofun⟩,
    ⟨by decide, .inr (by decide), ⟨[.request 0x02], by decide, by decide⟩, fun _ => ⟨[], rfl⟩⟩⟩

/-- A step from a state with the invariant that answers a next state; a reset that does. -/
theorem test_witness_inv_step :
    step (waiting []) = .next (waiting []) ∧ State.reset.assertReset = .next State.reset := ⟨rfl, rfl⟩

/-- `RunConcatenatesTheCommands`: an INIT, a SETSPD and a RIDE, with one reply in the transport. -/
theorem test_witness_run :
    Safety.Idle (fed (reply 0)) ∧ (∀ i ∈ [Instr.init, .setspd 80, .ride .forward], i.WellFormed) ∧
    (Safety.replay [.init, .setspd 80, .ride .forward] 50 (reply 0)).map Prod.snd = some (80, []) := by
  decide +kernel

theorem test_witness_runs : Sys2Proof.core.run 2 State.reset = .next State.reset := rfl

end Sys2Proof.Tests
end

section
/-! Byte order on the wire (20_memory.md): where the header, the payload and the tail stand in a frame, and how
the colour is cut into bytes. -/

namespace Sys2Proof.Proofs

open Sys2Proof.Machine

/-! ### The parts of a frame, by position -/

theorem buildFrame_take_header (ft a : Byte) (p : List Byte) : (buildFrame ft a p).take 2 = headerBytes := rfl

/-- What follows the five bytes of header, length, frame type and address. -/
theorem buildFrame_drop_five (ft a : Byte) (p : List Byte) :
    (buildFrame ft a p).drop 5 = p ++ checksum (frameBody ft a p) :: tailBytes := by
  simp [buildFrame, headerBytes, frameBody]

theorem buildFrame_payload (ft a : Byte) (p : List Byte) :
    ((buildFrame ft a p).drop 5).take p.length = p := by
  rw [buildFrame_drop_five, List.take_left]

theorem buildFrame_drop_tail (ft a : Byte) (p : List Byte) :
    (buildFrame ft a p).drop (6 + p.length) = tailBytes := by
  calc (buildFrame ft a p).drop (6 + p.length)
      = ((buildFrame ft a p).drop 5).drop (p.length + 1) := by rw [List.drop_drop]; congr 1; omega
    _ = tailBytes := by rw [buildFrame_drop_five, List.drop_append]; simp

/-! ### The two 16-bit constants and the colour, cut into bytes -/

theorem headerBytes_highByteFirst :
    headerBytes = [(0x5500 : BitVec 16).extractLsb' 8 8, (0x5500 : BitVec 16).extractLsb' 0 8] := by decide

theorem tailBytes_highByteFirst :
    tailBytes = [(0x00AA : BitVec 16).extractLsb' 8 8, (0x00AA : BitVec 16).extractLsb' 0 8] := by decide

theorem red_toNat (color : BitVec 24) : (red color).toNat = color.toNat / 65536 := by
  have := color.isLt
  simp only [red, BitVec.extractLsb'_toNat, Nat.shiftRight_eq_div_pow]
  omega

theorem green_toNat (color : BitVec 24) : (green color).toNat = color.toNat / 256 % 256 := by
  simp only [green, BitVec.extractLsb'_toNat, Nat.shiftRight_eq_div_pow]

theorem blue_toNat (color : BitVec 24) : (blue color).toNat = color.toNat % 256 := by
  simp only [blue, BitVec.extractLsb'_toNat, Nat.shiftRight_eq_div_pow, pow_zero, Nat.div_one]

theorem color_toNat (color : BitVec 24) :
    color.toNat = (red color).toNat * 65536 + (green color).toNat * 256 + (blue color).toNat := by
  rw [red_toNat, green_toNat, blue_toNat]
  omega

/-! ### The statements -/

/-- Settles O12, from the first two bytes and the last two of `buildFrame` (20_memory.md R26). -/
theorem headerAndTailHighByteFirst : Obligations.HeaderAndTailHighByteFirst := fun ft a p =>
  ⟨(buildFrame_take_header ft a p).trans headerBytes_highByteFirst,
    (buildFrame_drop_tail ft a p).trans tailBytes_highByteFirst,
    buildFrame_take_header ft a p, buildFrame_drop_tail ft a p⟩

/-- Settles O13: the colour is the sum of its bytes by weight, and the payload of `encWrite3Frame` is the three
bytes in that order (20_memory.md R27). -/
theorem colourMostSignificantByteFirst : Obligations.ColourMostSignificantByteFirst := fun color a =>
  ⟨color_toNat color, buildFrame_payload ftWrite a [red color, green color, blue color]⟩

end Sys2Proof.Proofs
end

section
/-! The frame formats (30_encoding.md): the bytes of the read request, and the length field of every frame. -/

namespace Sys2Proof.Proofs

open Sys2Proof.Machine

/-! ### The checksum as a sum -/

theorem byteSum_eq_sum (body : List Byte) : byteSum body = (body.map BitVec.toNat).sum := by
  induction body with
  | nil => rfl
  | cons b bs ih => rw [byteSum, ih, List.map_cons, List.sum_cons]

theorem checksum_eq (body : List Byte) :
    checksum body = BitVec.ofNat 8 (255 - (body.map BitVec.toNat).sum % 256) := by
  rw [checksum, not8, byteSum_eq_sum]

/-! ### The length field and the checksum of a frame, by position -/

theorem buildFrame_length (ft a : Byte) (p : List Byte) : (buildFrame ft a p).length = 8 + p.length := by
  simp +arith [buildFrame, headerBytes, frameBody, tailBytes]

theorem buildFrame_lengthByte (ft a : Byte) (p : List Byte) :
    (buildFrame ft a p).getD 2 0 = BitVec.ofNat 8 (8 + p.length) := rfl

/-- The bytes from the frame type to the end of the payload. -/
theorem buildFrame_typeToPayload (ft a : Byte) (p : List Byte) :
    ((buildFrame ft a p).drop 3).take (2 + p.length) = ft :: a :: p := by
  simp [buildFrame, headerBytes, frameBody, Nat.add_comm 2]

theorem buildFrame_checksumByte (ft a : Byte) (p : List Byte) :
    (buildFrame ft a p).getD (5 + p.length) 0 = checksum (frameBody ft a p) := by
  have h : ((buildFrame ft a p).drop 5)[p.length]? = some (checksum (frameBody ft a p)) := by
    rw [buildFrame_drop_five]
    simp
  rw [List.getD_eq_getElem?_getD, ← List.getElem?_drop, h, Option.getD_some]

/-- The length field of a frame whose byte count fits a byte (30_encoding.md R49). -/
theorem buildFrame_lengthField (ft a : Byte) (p : List Byte) (hp : p.length < 248) :
    (buildFrame ft a p).length = 8 + p.length ∧
    ((buildFrame ft a p).getD 2 0).toNat = 8 + p.length ∧
    (buildFrame ft a p).getD (5 + p.length) 0 =
      checksum (BitVec.ofNat 8 (8 + p.length) :: ((buildFrame ft a p).drop 3).take (2 + p.length)) := by
  refine ⟨buildFrame_length ft a p, ?_, ?_⟩
  · rw [buildFrame_lengthByte, BitVec.toNat_ofNat]
    omega
  · rw [buildFrame_checksumByte, buildFrame_typeToPayload, frameBody]

/-! ### The statements -/

/-- Settles O10: the layout is the general one with one payload byte, and the summed bytes are 9, 2, the
address and the reply length (30_encoding.md R48). -/
theorem encReadBuildsF9R : Obligations.EncReadBuildsF9R := by
  intro a n
  have hc : checksum [0x09, 0x02, a, n] = BitVec.ofNat 8 (255 - (9 + 2 + a.toNat + n.toNat) % 256) := by
    rw [checksum_eq]
    simp [← Nat.add_assoc]
  calc encReadFrame a n
      = [0x55, 0x00, 0x09, 0x02, a, n, checksum [0x09, 0x02, a, n], 0x00, 0xAA] := rfl
    _ = _ := by rw [hc]

/-- Settles O11, from the length field of a frame with one payload byte and with three
(30_encoding.md R49). -/
theorem lengthFieldIsTheByteCount : Obligations.LengthFieldIsTheByteCount :=
  ⟨fun a d => buildFrame_lengthField ftWrite a [d] (by simp),
    fun a n => buildFrame_lengthField ftRead a [n] (by simp),
    fun a d0 d1 d2 => buildFrame_lengthField ftWrite a [d0, d1, d2] (by simp)⟩

end Sys2Proof.Proofs
end

section
/-! The frame codec's pure part (40_frame_codec.md, sections 1 and 2): the checksum's values, the general frame
in full, and the two write frames. -/

namespace Sys2Proof.Proofs

open Sys2Proof.Machine

/-! ### The checksum -/

theorem checksum_toNat (body : List Byte) :
    (checksum body).toNat = 255 - (body.map BitVec.toNat).sum % 256 := by
  rw [checksum_eq, BitVec.toNat_ofNat]
  omega

theorem checksum_eq_not (body : List Byte) :
    checksum body = ~~~ BitVec.ofNat 8 (body.map BitVec.toNat).sum := by
  apply BitVec.eq_of_toNat_eq
  rw [checksum_toNat, BitVec.toNat_not, BitVec.toNat_ofNat]

theorem checksum_of_sum_mod_eq {body : List Byte} {r : Nat} (h : (body.map BitVec.toNat).sum % 256 = r) :
    checksum body = BitVec.ofNat 8 (255 - r) := by
  rw [checksum_eq, h]

theorem checksum_eq_of_perm {body body' : List Byte} (h : List.Perm body body') :
    checksum body = checksum body' := by
  rw [checksum_eq, checksum_eq, (h.map BitVec.toNat).sum_eq]

/-- The largest sum that a length, a frame type and the bytes after them can reach. -/
theorem sum_length_type_rest_le (len ft : Byte) (rest : List Byte) :
    ((len :: ft :: rest).map BitVec.toNat).sum ≤ len.toNat + ft.toNat + rest.length * 255 := by
  have hbyte : ∀ n ∈ rest.map BitVec.toNat, n ≤ 255 := by
    intro n hn
    obtain ⟨b, -, rfl⟩ := List.mem_map.mp hn
    exact Nat.le_of_lt_succ b.isLt
  have hrest : (rest.map BitVec.toNat).sum ≤ rest.length * 255 := by
    simpa using List.sum_le_card_nsmul _ 255 hbyte
  rw [List.map_cons, List.map_cons, List.sum_cons, List.sum_cons, ← Nat.add_assoc]
  exact Nat.add_le_add_left hrest _

/-! ### The frames, byte by byte -/

/-- The general layout in full: what is summed is the length, the frame type, the address and the payload. -/
theorem buildFrame_eq (ft a : Byte) (p : List Byte) :
    buildFrame ft a p =
      [0x55, 0x00, BitVec.ofNat 8 (8 + p.length), ft, a] ++ p ++
      [checksum ([BitVec.ofNat 8 (8 + p.length), ft, a] ++ p), 0x00, 0xAA] :=
  calc buildFrame ft a p
      = (buildFrame ft a p).take 5 ++ (buildFrame ft a p).drop 5 := (List.take_append_drop 5 _).symm
    _ = [0x55, 0x00, BitVec.ofNat 8 (8 + p.length), ft, a] ++
          (p ++ checksum (frameBody ft a p) :: tailBytes) := by rw [buildFrame_drop_five]; rfl
    _ = _ := (List.append_assoc _ _ _).symm

/-- The checksum byte of a frame does not see the order of the payload. -/
theorem buildFrame_checksumByte_of_perm (ft a : Byte) {p q : List Byte} (h : List.Perm p q) :
    (buildFrame ft a p).getD (5 + p.length) 0 = (buildFrame ft a q).getD (5 + q.length) 0 := by
  rw [buildFrame_checksumByte, buildFrame_checksumByte, frameBody, frameBody, h.length_eq]
  exact checksum_eq_of_perm (((h.cons a).cons ft).cons _)

theorem encWriteFrame_eq (a d : Byte) :
    encWriteFrame a d =
      [0x55, 0x00, 0x09, 0x00, a, d, BitVec.ofNat 8 (255 - (9 + a.toNat + d.toNat) % 256), 0x00, 0xAA] := by
  have hc : checksum [0x09, 0x00, a, d] = BitVec.ofNat 8 (255 - (9 + a.toNat + d.toNat) % 256) :=
    checksum_of_sum_mod_eq (by simp [← Nat.add_assoc])
  exact (buildFrame_eq ftWrite a [d]).trans (by rw [← hc]; rfl)

theorem encWrite3Frame_eq (a d0 d1 d2 : Byte) :
    encWrite3Frame a d0 d1 d2 =
      [0x55, 0x00, 0x0B, 0x00, a, d0, d1, d2,
        BitVec.ofNat 8 (255 - (11 + a.toNat + d0.toNat + d1.toNat + d2.toNat) % 256), 0x00, 0xAA] := by
  have hc : checksum [0x0B, 0x00, a, d0, d1, d2] =
      BitVec.ofNat 8 (255 - (11 + a.toNat + d0.toNat + d1.toNat + d2.toNat) % 256) :=
    checksum_of_sum_mod_eq (by simp [← Nat.add_assoc])
  exact (buildFrame_eq ftWrite a [d0, d1, d2]).trans (by rw [← hc]; rfl)

/-! ### The statements -/

/-- Settles O6: the value and the complement are those of the checksum as a sum, the layout that of
`buildFrame_eq`, and the largest sums come from the largest bytes (40_frame_codec.md R70). -/
theorem checksumIsNotOfTheSum : Obligations.ChecksumIsNotOfTheSum := by
  refine ⟨fun body => ⟨checksum_toNat body, checksum_eq_not body, checksum_of_sum_mod_eq,
    checksum_of_sum_mod_eq⟩, buildFrame_eq, ?_, ?_, by decide⟩
  · exact fun a n => (sum_length_type_rest_le 0x09 0x02 [a, n]).trans (by simp)
  · exact fun a d0 d1 d2 => (sum_length_type_rest_le 0x0B 0x00 [a, d0, d1, d2]).trans (by simp)

/-- Settles O8: the general layout with one payload byte; the corner cases are evaluated
(40_frame_codec.md R72). -/
theorem encWriteBuildsF9W : Obligations.EncWriteBuildsF9W :=
  ⟨encWriteFrame_eq, by decide, by decide, by decide, by decide⟩

/-- Settles O9: the general layout with three payload bytes, and the checksum of a permuted payload
(40_frame_codec.md R73). -/
theorem encWrite3BuildsF11W : Obligations.EncWrite3BuildsF11W :=
  ⟨encWrite3Frame_eq, fun a _ _ _ _ _ _ h => buildFrame_checksumByte_of_perm ftWrite a h,
    by decide, by decide⟩

end Sys2Proof.Proofs
end

section
/-! The frame codec's transactions (40_frame_codec.md, sections 3 and 5): how `TRANSMIT` moves, and the commands
that are one write. -/

namespace Sys2Proof.Proofs

open Sys2Proof.Machine

/-! ### The moves of a transmission -/

theorem sum_moves_map_tx (f : Frame) : ((f.map Action.tx).map moves).sum = f.length := by
  induction f with
  | nil => rfl
  | cons b f ih => rw [List.map_cons, List.map_cons, List.sum_cons, ih, List.length_cons, moves, Nat.add_comm]

/-- Bytes to emit take one move each, with nothing between them. -/
theorem ticks_map_tx (f : Frame) (rest : List Action) {s : State} (hb : s.busy = true) (hs : s.settle = 0)
    (ht : s.todo = f.map Action.tx ++ rest) :
    ticks f.length s = { s with trace := s.trace ++ f.map Event.tx, todo := rest } := by
  have hp : ∀ a ∈ f.map Action.tx, Safety.emitsOnly a = true := by
    intro a ha
    obtain ⟨b, -, rfl⟩ := List.mem_map.mp ha
    rfl
  rw [← sum_moves_map_tx f, ticks_emitting _ rest hp s hb hs ht, remaining_map_tx]

theorem tick_wait {s : State} {ms : Nat} {rest : List Action} (hb : s.busy = true) (hs : s.settle = 0)
    (ht : s.todo = .wait ms :: rest) :
    tick s = { s with trace := s.trace ++ [.wait ms], todo := rest, settle := ms } := by
  rw [tick_of_busy hb hs, perform, ht]
  rfl

/-- What a transmission has emitted after `k` of its bytes. -/
theorem ticks_transmit_take {f : Frame} {rest : List Action} {s : State} (hb : s.busy = true) (hs : s.settle = 0)
    (ht : s.todo = transmit f ++ rest) {k : Nat} (hk : k ≤ f.length) :
    (ticks k s).trace = s.trace ++ (f.take k).map Event.tx := by
  have hsplit : s.todo =
      (f.take k).map Action.tx ++ ((f.drop k).map Action.tx ++ [.wait settleMs] ++ rest) := by
    calc s.todo = (f.take k ++ f.drop k).map Action.tx ++ [.wait settleMs] ++ rest := by
          rw [ht, transmit, List.take_append_drop]
      _ = _ := by rw [List.map_append]; simp only [List.append_assoc]
  have h := ticks_map_tx (f.take k) _ hb hs hsplit
  rw [List.length_take_of_le hk] at h
  rw [h]

/-- One move after the last byte the settle delay runs, and what follows the frame is still to do. -/
theorem ticks_transmit {f : Frame} {rest : List Action} {s : State} (hb : s.busy = true) (hs : s.settle = 0)
    (ht : s.todo = transmit f ++ rest) :
    ticks (f.length + 1) s =
      { s with trace := s.trace ++ f.map Event.tx ++ [.wait 100], todo := rest, settle := 100 } := by
  rw [transmit, List.append_assoc] at ht
  rw [ticks_add, ticks_map_tx f _ hb hs ht]
  exact tick_wait hb hs rfl

/-- A command that is one transmission emits the frame and its settle delay, and is complete. -/
theorem runOn_transmit {f : Frame} {s : State} (hb : s.busy = true) (hs : s.settle = 0)
    (ht : s.todo = transmit f) :
    runOn s = { s with trace := s.trace ++ f.map Event.tx ++ [Event.wait 100] }.atRest := by
  rw [runOn_emitting hb hs (ht ▸ emitsOnly_of_mem_transmit f), ht, remaining_transmit, List.append_assoc]

/-! ### The statements -/

/-- Settles O22, from the moves of a list of bytes and the move that begins the delay
(40_frame_codec.md R76). -/
theorem transmitEmitsFrameThenSettles : Obligations.TransmitEmitsFrameThenSettles :=
  ⟨fun _ _ _ hb hs ht => ⟨fun _ hk => ticks_transmit_take hb hs ht hk, ticks_transmit hb hs ht⟩,
    by rw [remaining_transmit, encWriteFrame_eq]; decide⟩

/-- Settles O23: both transactions are one transmission, of a frame of nine bytes and of eleven
(40_frame_codec.md R81, R82). -/
theorem writeTransactionsSendOneFrame : Obligations.WriteTransactionsSendOneFrame :=
  ⟨fun a d _ hb hs ht =>
      ⟨runOn_transmit hb hs ht, List.length_map _ |>.trans (buildFrame_length ftWrite a [d])⟩,
    fun a d0 d1 d2 _ hb hs ht =>
      ⟨runOn_transmit hb hs ht, List.length_map _ |>.trans (buildFrame_length ftWrite a [d0, d1, d2])⟩,
    by decide, by decide⟩

end Sys2Proof.Proofs
end

section
/-! The arithmetic of the command mapper (41_arithmetic.md, sections 3 and 4): the rounded square root, XOR 2 and
the speed transforms of MOVE. -/

namespace Sys2Proof.Proofs

open Sys2Proof.Machine

/-! ### The rounded square root -/

theorem isqrtUpTo_eq_min (n k : Nat) : isqrtUpTo n k = min k (Nat.sqrt n) := by
  induction k with
  | zero => simp [isqrtUpTo]
  | succ k ih =>
    rw [isqrtUpTo, ih]
    split
    next h => exact (min_eq_left (Nat.le_sqrt.mpr h)).symm
    next h =>
      have hk : Nat.sqrt n ≤ k := Nat.lt_succ_iff.mp (Nat.sqrt_lt.mpr (not_le.mp h))
      rw [min_eq_right hk, min_eq_right (hk.trans k.le_succ)]

theorem isqrt_eq_sqrt (n : Nat) : isqrt n = Nat.sqrt n :=
  (isqrtUpTo_eq_min n n).trans (min_eq_right n.sqrt_le_self)

/-- `rsqrt n` is at most one half above the square root: `(rsqrt n - 1/2)^2 ≤ n`, over the integers. -/
theorem rsqrt_mul_self_lt {n : Nat} (hn : 0 < n) : rsqrt n * rsqrt n < n + rsqrt n := by
  have hpos : 0 < Nat.sqrt n := Nat.sqrt_pos.mpr hn
  have hle := Nat.sqrt_le n
  rw [rsqrt, isqrt_eq_sqrt]
  split
  next h => rw [Nat.succ_mul_succ]; omega
  next => omega

/-- `rsqrt n` is less than one half below the square root: `n < (rsqrt n + 1/2)^2`, over the integers. -/
theorem le_rsqrt_mul_self_add (n : Nat) : n ≤ rsqrt n * rsqrt n + rsqrt n := by
  have hle := Nat.sqrt_le_add n
  rw [rsqrt, isqrt_eq_sqrt]
  split
  next => rw [Nat.succ_mul_succ]; omega
  next h => omega

theorem rsqrt_eq_round (n : Nat) : (rsqrt n : Int) = round (Real.sqrt n) := by
  rw [round_eq, eq_comm, Int.floor_eq_iff, Int.cast_natCast]
  constructor
  · obtain rfl | hn := n.eq_zero_or_pos
    · norm_num [show rsqrt 0 = 0 from rfl]
    · have h : (rsqrt n * rsqrt n + 1 : ℝ) ≤ n + rsqrt n := by exact_mod_cast rsqrt_mul_self_lt hn
      have hsqrt : (rsqrt n - 1 / 2 : ℝ) ≤ Real.sqrt n := Real.le_sqrt_of_sq_le (by linarith)
      linarith
  · have h : (n : ℝ) ≤ rsqrt n * rsqrt n + rsqrt n := by exact_mod_cast le_rsqrt_mul_self_add n
    have hsqrt : Real.sqrt n < rsqrt n + 1 / 2 := (Real.sqrt_lt' (by positivity)).mpr (by linarith)
    linarith

theorem rsqrt_le_of_le_mul_self {n r : Nat} (h : n ≤ r * r) : rsqrt n ≤ r := by
  obtain rfl | hn := n.eq_zero_or_pos
  · exact r.zero_le
  · have hlt := rsqrt_mul_self_lt hn
    by_contra! hr
    nlinarith

theorem fwd_eq_neg_round {v : Int} (hv : 0 ≤ v) : fwd v = -(round (Real.sqrt v)) := by
  obtain ⟨n, rfl⟩ := Int.eq_ofNat_of_zero_le hv
  rw [fwd, Int.toNat_natCast, rsqrt_eq_round, Int.cast_natCast]

theorem fwd_nonpos (v : Int) : fwd v ≤ 0 := neg_nonpos.mpr (Int.natCast_nonneg _)

theorem neg_ten_le_fwd {v : Int} (hv : v ≤ 100) : -10 ≤ fwd v := by
  have h : rsqrt v.toNat ≤ 10 := rsqrt_le_of_le_mul_self (by omega)
  rw [fwd]
  omega

/-! ### XOR 2 -/

/-- XOR 2 changes the residue modulo 4 alone. -/
theorem nat_xor_two (n : Nat) : n ^^^ 2 = 4 * (n / 4) + (n % 4 ^^^ 2) := by
  have hdiv : (n ^^^ 2) / 4 = n / 4 := by simpa using Nat.xor_div_two_pow (a := n) (b := 2) (n := 2)
  have hmod : (n ^^^ 2) % 4 = n % 4 ^^^ 2 := Nat.xor_mod_two_pow (a := n) (b := 2) (n := 2)
  rw [← hdiv, ← hmod, Nat.div_add_mod]

theorem xor_two_le_of_lt {n : Nat} (h : n < 100) : n ^^^ 2 < 100 := by
  have : n % 4 ^^^ 2 < 4 := Nat.xor_lt_two_pow (n := 2) (n.mod_lt (by decide)) (by decide)
  rw [nat_xor_two]
  omega

theorem xor2_nonneg (v : Int) : 0 ≤ xor2 v := Int.natCast_nonneg _

/-- The cap of the backward transform does not act below 100. -/
theorem bwd_eq_xor2 {v : Int} (hv : v < 100) : bwd v = xor2 v := by
  have h : v.toNat ^^^ 2 < 100 := xor_two_le_of_lt (by omega)
  exact min_eq_left (by rw [xor2]; omega)

theorem bwd_nonneg (v : Int) : 0 ≤ bwd v := le_min (xor2_nonneg v) (by decide)

/-! ### The statements -/

/-- Settles O19: `rsqrt` is the rounded root, which up to 100 = 10 * 10 is at most 10 (41_arithmetic.md R98). -/
theorem forwardTransform : Obligations.ForwardTransform :=
  ⟨fun v h0 h100 => ⟨fwd_eq_neg_round h0, neg_ten_le_fwd h100, fwd_nonpos v⟩, by decide, by decide, by decide⟩

/-- Settles O20: XOR 2 permutes each group of four, so what is below 100 stays below it
(41_arithmetic.md R100). -/
theorem backwardTransform : Obligations.BackwardTransform :=
  ⟨fun v _ h100 => ⟨rfl, bwd_nonneg v, min_le_right _ _, fun h => bwd_eq_xor2 (lt_of_le_of_ne h100 h),
    xor2_nonneg v⟩, by decide, by decide, by decide, by decide⟩

end Sys2Proof.Proofs
end

section
/-! The encodings (30_encoding.md): what the decoder makes of a word's four fields and of a frame, its round trips
with the encoder, and the reserved words. -/

namespace Sys2Proof.Proofs

open Sys2Proof.Machine Sys2Proof.Laws

/-! ### A command word, decoded by its fields -/

theorem exists_commandFields (w : CommandWord) : ∃ op m hi v, commandFields op m hi v = w :=
  ⟨_, _, _, _, commandFields_of_word w⟩

/-- The command table of 30_encoding.md R55, with each row's condition said by fields. -/
theorem decodeWord_eq {op m : BitVec 4} {hi : BitVec 16} {v : Byte} {w : CommandWord}
    (hw : commandFields op m hi v = w) :
    decodeWord w =
      if op = 0 ∧ m = 0 ∧ hi = 0 ∧ v = 0 then .ok .init
      else if op = 1 ∧ m = 0 ∧ hi = 0 then .ok (.height (signedOperand w))
      else if op = 2 ∧ m = 0 ∧ hi = 0 then .ok (.lean (signedOperand w))
      else if op = 3 ∧ m &&& 0xE = 0 ∧ hi = 0 then .ok (.move (moveDirBit w) (signedOperand w))
      else if op = 4 ∧ m &&& 0xE = 0 ∧ hi = 0 then .ok (.rotate (rotDirBit w) (signedOperand w))
      else if op = 5 ∧ m = 0 ∧ hi = 0 ∧ v = 0 then .ok .stop
      else if op = 6 then .ok (.led (w.extractLsb' 24 4) (w.extractLsb' 0 24))
      else if op = 7 ∧ m = 0 ∧ hi = 0 then .ok (.setspd (signedOperand w))
      else if op = 8 ∧ m &&& 0xE = 0 ∧ hi = 0 ∧ v = 0 then .ok (.turn (rotDirBit w))
      else if op = 9 ∧ m &&& 0xE = 0 ∧ hi = 0 ∧ v = 0 then .ok (.ride (moveDirBit w))
      else .error (.reservedWord w) := by
  subst hw
  simp only [decodeWord, selects_init, selects_height, selects_lean, selects_move, selects_rotate, selects_stop,
    selects_led, selects_setspd, selects_turn, selects_ride]

/-! ### The operands that a word carries -/

theorem signedByte_signedOperand (w : CommandWord) : SignedByte (signedOperand w) :=
  ⟨BitVec.le_toInt _, Int.le_of_lt_add_one (BitVec.toInt_lt)⟩

theorem operandByte_signedOperand (op m : BitVec 4) (hi : BitVec 16) (v : Byte) :
    operandByte (signedOperand (commandFields op m hi v)) = v := by
  rw [signedOperand, commandFields_v]
  exact BitVec.ofInt_toInt

theorem moveDirField_moveDirBit (op : BitVec 4) {m : BitVec 4} (hi : BitVec 16) (v : Byte) (h : m &&& 0xE = 0) :
    moveDirField (moveDirBit (commandFields op m hi v)) = m := by
  rw [moveDirBit, commandFields_bit24]
  revert m; decide

theorem rotDirField_rotDirBit (op : BitVec 4) {m : BitVec 4} (hi : BitVec 16) (v : Byte) (h : m &&& 0xE = 0) :
    rotDirField (rotDirBit (commandFields op m hi v)) = m := by
  rw [rotDirBit, commandFields_bit24]
  revert m; decide

/-- The two parts of an LED word's colour are its fields `hi` and `v`. -/
theorem extractLsb'_color (w : CommandWord) :
    (w.extractLsb' 0 24).extractLsb' 8 16 = w.extractLsb' 8 16 ∧
    (w.extractLsb' 0 24).extractLsb' 0 8 = w.extractLsb' 0 8 :=
  ⟨BitVec.extractLsb'_extractLsb'_of_le (by decide), BitVec.extractLsb'_extractLsb'_of_le (by decide)⟩

/-! ### The round trip from an instruction -/

theorem encReadFrame_ne_encWriteFrame (a n : Byte) : encReadFrame a n ≠ encWriteFrame a n := fun h =>
  absurd (congrArg (List.getD · 3 0) h) (by decide : ftRead ≠ ftWrite)

/-- The fields of each encoding select its row, and the operands are read back from them. -/
theorem decode_encode {i : Instr} (h : i.WellFormed) : decode (encode i) = .ok i := by
  cases i with
  | init | stop => decide
  | height x | lean x | setspd x =>
    have hx := of_decide_eq_true h
    rw [encode, decode, decodeWord_eq rfl, signedOperand_field _ _ _ hx]
    rfl
  | move dir x =>
    have hx := of_decide_eq_true h
    rw [encode, decode, decodeWord_eq rfl, signedOperand_field _ _ _ hx, moveDirBit_field, moveDirField_and]
    rfl
  | rotate dir x =>
    have hx := of_decide_eq_true h
    rw [encode, decode, decodeWord_eq rfl, signedOperand_field _ _ _ hx, rotDirBit_field, rotDirField_and]
    rfl
  | led mask color => rw [encode, decode, decodeWord_eq rfl, commandFields_m, commandFields_color]; rfl
  | turn dir => rw [encode, decode, decodeWord_eq rfl, rotDirBit_field, rotDirField_and]; rfl
  | ride dir => rw [encode, decode, decodeWord_eq rfl, moveDirBit_field, moveDirField_and]; rfl
  | encWrite a d => exact if_pos rfl
  | encWrite3 a d0 d1 d2 => exact if_pos rfl
  | encRead a n =>
    have hnine : decode (encode (.encRead a n)) = decodeNine (encReadFrame a n) a n := rfl
    rw [hnine, decodeNine, if_neg (encReadFrame_ne_encWriteFrame a n), if_pos rfl]

/-! ### The round trip from an offer -/

/-- Row by row of the command table, in its order. -/
theorem encode_of_decodeWord {w : CommandWord} {i : Instr} (h : decodeWord w = .ok i) :
    i.WellFormed ∧ encode i = .command w := by
  obtain ⟨op, m, hi, v, rfl⟩ := exists_commandFields w
  have hx := decide_eq_true (signedByte_signedOperand (commandFields op m hi v))
  rw [decodeWord_eq rfl] at h
  obtain ⟨⟨rfl, rfl, rfl, rfl⟩, ⟨⟩⟩ | ⟨-, h⟩ := ite_eq_iff.mp h
  · exact ⟨rfl, rfl⟩
  obtain ⟨⟨rfl, rfl, rfl⟩, ⟨⟩⟩ | ⟨-, h⟩ := ite_eq_iff.mp h
  · exact ⟨hx, by rw [encode, operandByte_signedOperand]⟩
  obtain ⟨⟨rfl, rfl, rfl⟩, ⟨⟩⟩ | ⟨-, h⟩ := ite_eq_iff.mp h
  · exact ⟨hx, by rw [encode, operandByte_signedOperand]⟩
  obtain ⟨⟨rfl, hm, rfl⟩, ⟨⟩⟩ | ⟨-, h⟩ := ite_eq_iff.mp h
  · exact ⟨hx, by rw [encode, operandByte_signedOperand, moveDirField_moveDirBit _ _ _ hm]⟩
  obtain ⟨⟨rfl, hm, rfl⟩, ⟨⟩⟩ | ⟨-, h⟩ := ite_eq_iff.mp h
  · exact ⟨hx, by rw [encode, operandByte_signedOperand, rotDirField_rotDirBit _ _ _ hm]⟩
  obtain ⟨⟨rfl, rfl, rfl, rfl⟩, ⟨⟩⟩ | ⟨-, h⟩ := ite_eq_iff.mp h
  · exact ⟨rfl, rfl⟩
  obtain ⟨rfl, ⟨⟩⟩ | ⟨-, h⟩ := ite_eq_iff.mp h
  · obtain ⟨hhi, hv⟩ := extractLsb'_color (commandFields 6 m hi v)
    exact ⟨rfl, by rw [encode, hhi, hv, commandFields_m, commandFields_hi, commandFields_v]⟩
  obtain ⟨⟨rfl, rfl, rfl⟩, ⟨⟩⟩ | ⟨-, h⟩ := ite_eq_iff.mp h
  · exact ⟨hx, by rw [encode, operandByte_signedOperand]⟩
  obtain ⟨⟨rfl, hm, rfl, rfl⟩, ⟨⟩⟩ | ⟨-, h⟩ := ite_eq_iff.mp h
  · exact ⟨rfl, by rw [encode, rotDirField_rotDirBit _ _ _ hm]⟩
  obtain ⟨⟨rfl, hm, rfl, rfl⟩, ⟨⟩⟩ | ⟨-, h⟩ := ite_eq_iff.mp h
  · exact ⟨rfl, by rw [encode, moveDirField_moveDirBit _ _ _ hm]⟩
  cases h

/-- A frame is accepted only as the one its own operands build. -/
theorem encode_of_decodeFrame {bytes : List Byte} {i : Instr} (h : decodeFrame bytes = .ok i) :
    i.WellFormed ∧ encode i = .codec bytes := by
  unfold decodeFrame at h
  split at h
  · obtain ⟨hframe, ⟨⟩⟩ | ⟨-, h⟩ := ite_eq_iff.mp h
    · exact ⟨rfl, hframe ▸ rfl⟩
    obtain ⟨hframe, ⟨⟩⟩ | ⟨-, h⟩ := ite_eq_iff.mp h
    · exact ⟨rfl, hframe ▸ rfl⟩
    cases h
  · obtain ⟨hframe, ⟨⟩⟩ | ⟨-, h⟩ := ite_eq_iff.mp h
    · exact ⟨rfl, hframe ▸ rfl⟩
    cases h
  · cases h

/-! ### The reserved words -/

/-- A field is zero if both of its parts are. -/
theorem extractLsb'_add_eq_zero {n : Nat} (x : BitVec n) (start lo hi : Nat) :
    x.extractLsb' start (hi + lo) = 0 ↔ x.extractLsb' (start + lo) hi = 0 ∧ x.extractLsb' start lo = 0 := by
  rw [← BitVec.extractLsb'_append_extractLsb'_eq_extractLsb' rfl]
  constructor
  · intro h
    constructor
    · simpa [BitVec.extractLsb'_append_eq_left] using congrArg (BitVec.extractLsb' lo hi) h
    · simpa [BitVec.extractLsb'_append_eq_right] using congrArg (BitVec.extractLsb' 0 lo) h
  · rintro ⟨hhi, hlo⟩
    rw [hhi, hlo]
    exact BitVec.zero_append_zero

/-- The bits of `m` above the direction bit. -/
theorem commandFields_reservedBits (op m : BitVec 4) (hi : BitVec 16) (v : Byte) :
    (commandFields op m hi v).extractLsb' 25 3 = 0 ↔ m &&& 0xE = 0 := by
  have hslice : (commandFields op m hi v).extractLsb' 25 3 = m.extractLsb' 1 3 := by
    apply BitVec.eq_of_getLsbD_eq
    intro i hi3
    simp [BitVec.getLsbD_extractLsb', commandFields_getLsbD, show ¬ 25 + i < 8 by omega, show ¬ 25 + i < 24 by omega,
      show 25 + i < 28 by omega, show 25 + i - 24 = 1 + i by omega]
  have hmask : ∀ m : BitVec 4, m.extractLsb' 1 3 = 0 ↔ m &&& 0xE = 0 := by decide
  rw [hslice, hmask]

theorem commandFields_payload_eq_zero (op m : BitVec 4) (hi : BitVec 16) (v : Byte) :
    (commandFields op m hi v).extractLsb' 0 24 = 0 ↔ hi = 0 ∧ v = 0 := by
  rw [extractLsb'_add_eq_zero _ 0 8 16, commandFields_hi, commandFields_v]

theorem commandFields_belowOp_eq_zero (op m : BitVec 4) (hi : BitVec 16) (v : Byte) :
    (commandFields op m hi v).extractLsb' 0 28 = 0 ↔ m = 0 ∧ hi = 0 ∧ v = 0 := by
  rw [extractLsb'_add_eq_zero _ 0 24 4, commandFields_m, commandFields_payload_eq_zero]

theorem commandFields_belowOp_aboveV_eq_zero (op m : BitVec 4) (hi : BitVec 16) (v : Byte) :
    (commandFields op m hi v).extractLsb' 8 20 = 0 ↔ m = 0 ∧ hi = 0 := by
  rw [extractLsb'_add_eq_zero _ 8 16 4, commandFields_m, commandFields_hi]

theorem opcode_cases (op : BitVec 4) :
    10 ≤ op.toNat ∨ op = 0 ∨ op = 1 ∨ op = 2 ∨ op = 3 ∨ op = 4 ∨ op = 5 ∨ op = 6 ∨ op = 7 ∨ op = 8 ∨ op = 9 := by
  revert op; decide

/-! ### The statements -/

/-- Settles O1 (30_encoding.md sections 1 and 4). -/
theorem decodeOfEncodeIsTheInstruction : Obligations.DecodeOfEncodeIsTheInstruction := fun _ => decode_encode

/-- Settles O2, for a command word and for a frame (30_encoding.md sections 1 and 4). -/
theorem encodeOfDecodeIsTheOffer : Obligations.EncodeOfDecodeIsTheOffer := by
  intro o i h
  cases o with
  | command w => exact encode_of_decodeWord h
  | codec bytes => exact encode_of_decodeFrame h

/-- Settles O3, opcode by opcode: each leaves one row of the table, and its condition is that the fields it
requires to be zero are (30_encoding.md section 6). -/
theorem reservedWordsAreRejected : Obligations.ReservedWordsAreRejected := by
  intro w
  obtain ⟨op, m, hi, v, rfl⟩ := exists_commandFields w
  simp only [decodeWord_eq rfl, ne_eq, commandFields_op, commandFields_reservedBits, commandFields_payload_eq_zero,
    commandFields_belowOp_eq_zero, commandFields_belowOp_aboveV_eq_zero, commandFields_hi]
  obtain hop | rfl | rfl | rfl | rfl | rfl | rfl | rfl | rfl | rfl | rfl := opcode_cases op
  · have hne : ∀ k : BitVec 4, k.toNat < 10 → op ≠ k := by rintro k hk rfl; omega
    simp [hne, hop]
  all_goals simp [imp_iff_not_or]

/-- Settles O4: the words and frames are evaluated (95_test_vectors.md). -/
theorem wordsOfTheSpecDecode : Obligations.WordsOfTheSpecDecode := by
  unfold Obligations.WordsOfTheSpecDecode
  decide

/-- Settles O5: the lines are evaluated (30_encoding.md section 7). -/
theorem assemblerReadsTheExamples : Obligations.AssemblerReadsTheExamples := by
  unfold Obligations.AssemblerReadsTheExamples
  decide

end Sys2Proof.Proofs
end

section
/-! Arithmetic (40_frame_codec.md section 1, 41_arithmetic.md): the checksum's accumulator, the clamp, the remaps,
the bands of the rounded square root, and the bytes of MOVE in both directions. -/

namespace Sys2Proof.Proofs

open Sys2Proof.Machine

/-! ### The checksum's accumulator -/

/-- Accumulating bytes in `n` bits is adding up their sum modulo `2 ^ n`. -/
theorem foldl_add_setWidth {n : Nat} (body : List Byte) (acc : BitVec n) :
    body.foldl (fun acc b => acc + b.setWidth n) acc = acc + BitVec.ofNat n (body.map BitVec.toNat).sum := by
  induction body generalizing acc with
  | nil => simp
  | cons b bs ih =>
    have hb : b.setWidth n = BitVec.ofNat n b.toNat := by
      apply BitVec.eq_of_toNat_eq
      rw [BitVec.toNat_setWidth, BitVec.toNat_ofNat]
    rw [List.foldl_cons, ih, hb, List.map_cons, List.sum_cons, BitVec.ofNat_add, BitVec.add_assoc]

/-- The bytes that the checksum covers, and the checksum. -/
theorem buildFrame_summed (ft a : Byte) (p : List Byte) :
    ((buildFrame ft a p).drop 2).take (p.length + 4) = frameBody ft a p ++ [checksum (frameBody ft a p)] := by
  have hdrop : (buildFrame ft a p).drop 2 = (frameBody ft a p ++ [checksum (frameBody ft a p)]) ++ tailBytes := rfl
  rw [hdrop]
  exact List.take_left' (by simp [frameBody])

/-- Bytes and their checksum sum to 255 modulo 256. -/
theorem sum_append_checksum (body : List Byte) :
    ((body ++ [checksum body]).map BitVec.toNat).sum % 256 = 255 := by
  rw [List.map_append, List.sum_append, List.map_singleton, List.sum_singleton, checksum_toNat]
  omega

/-! ### The clamp -/

theorem clamp_of_lt {v lo hi : Int} (h : v < lo) : clamp v lo hi = lo := if_pos h

theorem clamp_of_gt {v lo hi : Int} (hle : lo ≤ hi) (h : hi < v) : clamp v lo hi = hi :=
  (if_neg (by omega)).trans (if_pos h)

theorem clamp_of_mem {v lo hi : Int} (hlo : lo ≤ v) (hhi : v ≤ hi) : clamp v lo hi = v :=
  (if_neg (by omega)).trans (if_neg (by omega))

theorem clamp_eq_max_min {v lo hi : Int} (hle : lo ≤ hi) : clamp v lo hi = max lo (min v hi) := by
  unfold clamp
  split
  · omega
  · split <;> omega

theorem clamp_mem {v lo hi : Int} (hle : lo ≤ hi) : lo ≤ clamp v lo hi ∧ clamp v lo hi ≤ hi := by
  rw [clamp_eq_max_min hle]
  omega

theorem clamp_clamp {v lo hi : Int} (hle : lo ≤ hi) : clamp (clamp v lo hi) lo hi = clamp v lo hi :=
  clamp_of_mem (clamp_mem hle).1 (clamp_mem hle).2

theorem clamp_mono {v w lo hi : Int} (hle : lo ≤ hi) (h : v ≤ w) : clamp v lo hi ≤ clamp w lo hi := by
  rw [clamp_eq_max_min hle, clamp_eq_max_min hle]
  omega

/-! ### The remaps -/

theorem remap100_mem {v : Int} (hlo : -100 ≤ v) (hhi : v ≤ 100) : 0 ≤ remap100 v ∧ remap100 v ≤ 255 := by
  unfold remap100
  omega

theorem remap20_mem {h : Int} (hlo : -20 ≤ h) (hhi : h ≤ 20) : 0 ≤ remap20 h ∧ remap20 h ≤ 255 := by
  unfold remap20
  omega

/-- Both remaps divide by a numeral, and floor division is the floor of the quotient: they round half up. -/
theorem remap100_eq_floor (v : Int) :
    remap100 v = ⌊(0 + ((v : ℚ) - (-100)) * (255 - 0) / (100 - (-100))) + 1 / 2⌋ :=
  calc remap100 v
      = ⌊(((v + 100) * 51 + 20 : Int) : ℚ) / (40 : Nat)⌋ := (Rat.floor_intCast_div_natCast _ 40).symm
    _ = _ := by congr 1; push_cast; ring

theorem remap20_eq_floor (h : Int) :
    remap20 h = ⌊(0 + ((h : ℚ) - (-20)) * (255 - 0) / (20 - (-20))) + 1 / 2⌋ :=
  calc remap20 h
      = ⌊(((h + 20) * 51 + 4 : Int) : ℚ) / (8 : Nat)⌋ := (Rat.floor_intCast_div_natCast _ 8).symm
    _ = _ := by congr 1; push_cast; ring

/-! ### The bands of the rounded square root -/

/-- `rsqrt n` is `k` on the band around `k * k` (41_arithmetic.md section 3). -/
theorem rsqrt_eq_iff {n k : Nat} (hk : 1 ≤ k) : rsqrt n = k ↔ k * k - k + 1 ≤ n ∧ n ≤ k * k + k := by
  have hkk : k ≤ k * k := Nat.le_mul_self k
  have hhi := le_rsqrt_mul_self_add n
  constructor
  · rintro rfl
    have hn : 0 < n := Nat.pos_of_ne_zero (by rintro rfl; exact absurd hk (by decide))
    have hlo := rsqrt_mul_self_lt hn
    omega
  · rintro ⟨hlo, hup⟩
    have hlt := rsqrt_mul_self_lt (n := n) (by omega)
    zify [hkk] at *
    apply le_antisymm <;> by_contra! hne <;> nlinarith

/-! ### The bytes of MOVE -/

theorem xor2_cases {v : Int} (hv : 0 ≤ v) :
    (v % 4 = 0 ∨ v % 4 = 1) ∧ xor2 v = v + 2 ∨ (v % 4 = 2 ∨ v % 4 = 3) ∧ xor2 v = v - 2 := by
  have hx : ∀ r < 4, r ^^^ 2 = if r < 2 then r + 2 else r - 2 := by decide
  rw [xor2, nat_xor_two, hx _ (Nat.mod_lt _ (by decide))]
  split <;> omega

/-! ### The statements -/

/-- Settles O7: in any width from 8 bits the accumulator's low byte is the sum's, and in a frame the complement
fills the sum up to 255 (40_frame_codec.md section 1). -/
theorem checksumConsequences : Obligations.ChecksumConsequences := by
  constructor
  · intro n body hn
    rw [foldl_add_setWidth, BitVec.setWidth_not hn, BitVec.ofNat_eq_ofNat, BitVec.zero_add,
      BitVec.setWidth_ofNat_of_le hn, checksum_eq_not]
  · intro ft a p
    rw [buildFrame_summed, sum_append_checksum]

/-- Settles O14; the port's operand functions are clamps by definition (41_arithmetic.md section 5). -/
theorem clampCases : Obligations.ClampCases :=
  ⟨fun _ _ _ _ hle => ⟨clamp_of_lt, clamp_of_gt hle, clamp_of_mem, clamp_clamp hle, clamp_mono hle⟩,
    fun _ => ⟨rfl, rfl, rfl, rfl, rfl⟩⟩

/-- Settles O15, for every integer (41_arithmetic.md section 2). -/
theorem remapsAreTheRoundedLinearMap : Obligations.RemapsAreTheRoundedLinearMap :=
  ⟨fun v _ _ => remap100_eq_floor v, fun h _ _ => remap20_eq_floor h⟩

/-- Settles O16: a difference of one in the input is a difference of 51/40 or 51/8 before the floor
(41_arithmetic.md section 2). -/
theorem remapProperties : Obligations.RemapProperties := by
  refine ⟨fun v => remap100_mem, fun h => remap20_mem, fun v _ _ => ?_, fun h _ _ => ?_, ?_⟩
  · simp only [remap100]
    omega
  · simp only [remap20]
    omega
  · decide

/-- Settles O17, by the residues of the images' numerators (41_arithmetic.md section 2). -/
theorem remapHalfCases : Obligations.RemapHalfCases :=
  ⟨fun v _ _ => by omega, fun h _ _ => by omega, by decide, by decide⟩

/-- Settles O18 (41_arithmetic.md section 3). -/
theorem rsqrtIsTheNearestInteger : Obligations.RsqrtIsTheNearestInteger :=
  fun n _ => ⟨rsqrt_eq_round n, fun _ hk => rsqrt_eq_iff hk⟩

/-- Settles O21 (41_arithmetic.md section 4). -/
theorem xorTwoFlipsBitOne : Obligations.XorTwoFlipsBitOne := by
  intro v h0 h100
  obtain ⟨hmod, hx⟩ | ⟨hmod, hx⟩ := xor2_cases h0 <;> omega

/-- Settles O30: the rows are the bands of the rounded square root, and each band has one byte
(43_motion_posture.md section 2). -/
theorem moveForwardBytes : Obligations.MoveForwardBytes := by
  intro v h0 h100
  obtain rfl | hpos := h0.eq_or_lt
  · decide
  have hk : rsqrt v.toNat ≤ 10 := rsqrt_le_of_le_mul_self (by omega)
  have hlo : rsqrt v.toNat * rsqrt v.toNat < v.toNat + rsqrt v.toNat := rsqrt_mul_self_lt (by omega)
  have hhi := le_rsqrt_mul_self_add v.toNat
  rw [fwd, remap100]
  generalize rsqrt v.toNat = k at *
  interval_cases k <;> omega

/-- Settles O31: XOR 2 moves a speed by 2 at most, and the byte is 128 where it becomes zero
(43_motion_posture.md section 2). -/
theorem moveBackwardBytes : Obligations.MoveBackwardBytes := by
  refine ⟨fun v h0 h100 => ?_, by decide, by decide⟩
  have hx := xor2_cases h0
  rw [bwd, remap100]
  omega

end Sys2Proof.Proofs
end

section
/-! The sequencer's moves (20_memory.md section 6, 40_frame_codec.md section 4, 60_exceptions.md section 4): what
a command has emitted and still has to emit, the trace under any number of moves, and one receive. -/

namespace Sys2Proof.Proofs

open Sys2Proof.Machine

/-- A move of a command that only emits takes from what is left to emit what it adds to the trace. -/
theorem tick_emitsOnly {s : State} (hp : ∀ a ∈ s.todo, Safety.emitsOnly a = true) :
    (∀ a ∈ (tick s).todo, Safety.emitsOnly a = true) ∧
    (tick s).trace ++ Safety.remaining (tick s).todo = s.trace ++ Safety.remaining s.todo := by
  by_cases hb : s.busy = true
  case neg => rw [tick_of_idle (Bool.eq_false_of_not_eq_true hb)]; exact ⟨hp, rfl⟩
  by_cases hs : s.settle = 0
  case neg => rw [tick, if_pos hb, if_neg hs]; exact ⟨hp, rfl⟩
  rw [tick_of_busy hb hs]
  cases ht : s.todo with
  | nil => rw [perform, ht]; exact ⟨nofun, rfl⟩
  | cons a rest =>
    rw [ht, List.forall_mem_cons] at hp
    obtain ⟨ha, hrest⟩ := hp
    cases a with
    | tx b | wait ms =>
      rw [perform, ht]
      exact ⟨hrest, List.append_assoc _ _ _⟩
    | receive | compareStatus st => cases ha

theorem ticks_emitsOnly {s : State} (hp : ∀ a ∈ s.todo, Safety.emitsOnly a = true) (n : Nat) :
    (ticks n s).trace ++ Safety.remaining (ticks n s).todo = s.trace ++ Safety.remaining s.todo := by
  induction n generalizing s with
  | zero => rfl
  | succ n ih =>
    obtain ⟨hp', htrace⟩ := tick_emitsOnly hp
    exact (ih hp').trans htrace

theorem trace_prefix_ticks (n : Nat) (s : State) : s.trace <+: (ticks n s).trace := by
  induction n generalizing s with
  | zero => exact List.prefix_rfl
  | succ n ih =>
    have htick : s.trace <+: (tick s).trace := by
      obtain h | ⟨e, h⟩ := tick_trace s
      · rw [h]
      · exact ⟨[e], h.symm⟩
    exact htick.trans (ih (tick s))

theorem trace_prefix_runOn (s : State) : s.trace <+: (runOn s).trace := trace_prefix_ticks _ s

/-! ### The statements -/

/-- Settles O24: one enabled move of the receive, with the nine bytes named (40_frame_codec.md section 4). -/
theorem receiveTakesNineBytes : Obligations.ReceiveTakesNineBytes := by
  refine ⟨fun rest s hb hs ht hr => ticks_of_starved hb hs ht hr 1, ?_⟩
  intro rest s r0 r1 r2 r3 r4 r5 r6 r7 r8 more hb hs ht hrx
  rw [tick_of_busy hb hs, perform, ht]
  simp [receiveOne, hrx, replyLen, replyByte, replyOff]

/-- Settles O25, by induction on the moves (60_exceptions.md section 4). -/
theorem emittedPlusRemainingIsConstant : Obligations.EmittedPlusRemainingIsConstant := by
  intro i l s n hp
  obtain ⟨hcruise, -, -⟩ := ticks_frame n (accept i l s)
  exact ⟨ticks_emitsOnly (s := accept i l s) hp n, hcruise⟩

/-- Settles O26: more moves are fewer moves and then some (20_memory.md section 6). -/
theorem movesOnlyExtendTheTrace : Obligations.MovesOnlyExtendTheTrace := by
  refine ⟨tick_trace, fun s m n h => ?_⟩
  obtain ⟨k, rfl⟩ := Nat.exists_eq_add_of_le h
  rw [ticks_add]
  exact trace_prefix_ticks k (ticks m s)

end Sys2Proof.Proofs
end

section
/-! What each instruction does, said once: nothing to a busy block; to an idle block one of five things, by the kind
of the instruction (30_encoding.md R53, 42_system_commands.md, 43_motion_posture.md, 44_led_color.md). -/

namespace Sys2Proof.Proofs

open Sys2Proof.Machine

/-! ### The kinds of instructions -/

/-- The commands that send frames and read no reply. -/
def sendsFrames : Instr → Bool
  | .height _ | .lean _ | .move _ _ | .rotate _ _ | .stop | .led _ _ | .turn _ | .ride _ => true
  | .init | .setspd _ | .encWrite _ _ | .encWrite3 _ _ _ _ | .encRead _ _ => false

/-- The frame that a codec encoder returns; none for a command. -/
def encodedFrame : Instr → Option Frame
  | .encWrite a d => some (encWriteFrame a d)
  | .encWrite3 a d0 d1 d2 => some (encWrite3Frame a d0 d1 d2)
  | .encRead a n => some (encReadFrame a n)
  | .init | .height _ | .lean _ | .move _ _ | .rotate _ _ | .stop | .led _ _ | .setspd _ | .turn _ | .ride _ => none

/-! ### The events of a command's actions -/

theorem remaining_write1 (a d : Byte) : Safety.remaining (write1 a d) = Safety.sent (encWriteFrame a d) :=
  remaining_transmit _

theorem remaining_write3 (a d0 d1 d2 : Byte) :
    Safety.remaining (write3 a d0 d1 d2) = Safety.sent (encWrite3Frame a d0 d1 d2) := remaining_transmit _

theorem remaining_quadrantActions (mask : BitVec 4) (color : BitVec 24) (i : Nat) :
    Safety.remaining (quadrantActions mask color i) =
      if mask.getLsbD i then
        Safety.sent (encWrite3Frame (addrLed i) (red color) (green color) (blue color))
      else [] := by
  rw [quadrantActions, quadrantSelected]
  split
  · exact remaining_write3 _ _ _ _
  · rfl

theorem remaining_quadrants (mask : BitVec 4) (color : BitVec 24) :
    Safety.remaining ([0, 1, 2, 3].flatMap (quadrantActions mask color)) = Safety.ledEvents mask color := by
  simp only [List.flatMap_cons, List.flatMap_nil, remaining_append, remaining_quadrantActions, Safety.ledEvents,
    List.append_nil, List.append_assoc]
  rfl

theorem remaining_afterStatus (st : Byte) :
    Safety.remaining (afterStatus st) =
      if st = 0x00 then [] else Safety.sent (encWriteFrame 0x3E 0xFF) ++ [.wait 1000] := by
  by_cases hst : st = 0x00
  · subst hst; rfl
  · rw [afterStatus, statusActive, if_neg (by simpa using hst), if_neg hst, remaining_append, remaining_write1]
    rfl

/-- INIT's status read, up to the receive (42_system_commands.md R105). -/
theorem remaining_statusRequest :
    Safety.remaining (transmit (encReadFrame addrStatus 1)) = Safety.sent (encReadFrame 0x02 1) :=
  remaining_transmit _

/-! ### The shared shapes of an instruction -/

theorem runCommand_of_idle (i : Instr) (l : List Action) {s : State} (hb : s.busy = false) :
    runCommand i l s = .next (runOn (accept i l s)) := whenIdle_of_idle hb _

theorem runCommand_of_busy (i : Instr) (l : List Action) {s : State} (hb : s.busy = true) :
    runCommand i l s = .next s := whenIdle_of_busy hb _

theorem runEncoder_of_idle (f : Frame) {s : State} (hb : s.busy = false) :
    runEncoder f s = .next { s with built := some f } := whenIdle_of_idle hb _

theorem runEncoder_of_busy (f : Frame) {s : State} (hb : s.busy = true) : runEncoder f s = .next s :=
  whenIdle_of_busy hb _

theorem execSetspd_of_idle (p : Int) {s : State} (hb : s.busy = false) :
    execSetspd p s = .next { s with cruise := (clamp p 0 100).toNat } := whenIdle_of_idle hb _

theorem execSetspd_of_busy (p : Int) {s : State} (hb : s.busy = true) : execSetspd p s = .next s :=
  whenIdle_of_busy hb _

/-! ### The commands that send frames -/

theorem runCommand_sends {i : Instr} {l : List Action} {evs : List Event} {s : State} (hb : s.busy = false)
    (hp : ∀ a ∈ l, Safety.emitsOnly a = true) (he : Safety.remaining l = evs) :
    runCommand i l s = .next { s with trace := s.trace ++ evs }.atRest :=
  he ▸ runCommand_emitting i l hp s hb

theorem runCommand_write1 (i : Instr) (a d : Byte) {s : State} (hb : s.busy = false) :
    runCommand i (write1 a d) s = .next { s with trace := s.trace ++ Safety.sent (encWriteFrame a d) }.atRest :=
  runCommand_sends hb (emitsOnly_of_mem_write1 a d) (remaining_write1 a d)

theorem runCommand_write1_write1 (i : Instr) (a d a' d' : Byte) {s : State} (hb : s.busy = false) :
    runCommand i (write1 a d ++ write1 a' d') s =
      .next { s with trace := s.trace ++
        (Safety.sent (encWriteFrame a d) ++ Safety.sent (encWriteFrame a' d')) }.atRest :=
  runCommand_sends hb (emitsOnly_of_mem_append (emitsOnly_of_mem_write1 a d) (emitsOnly_of_mem_write1 a' d'))
    (by rw [remaining_append, remaining_write1, remaining_write1])

/-- From an idle block a command that sends frames completes, and emits exactly its own event sequence. -/
theorem exec_of_sendsFrames {i : Instr} {evs : List Event} {s : State} (hb : s.busy = false)
    (hi : sendsFrames i = true) (he : Safety.events s.cruise i = some evs) :
    exec i s = .next { s with trace := s.trace ++ evs }.atRest := by
  cases i with
  | height h => cases he; exact runCommand_write1 _ _ _ hb
  | lean a => cases he; exact runCommand_write1 _ _ _ hb
  | move dir v => cases dir <;> cases he <;> exact runCommand_write1 _ _ _ hb
  | rotate dir v => cases dir <;> cases he <;> exact runCommand_write1 _ _ _ hb
  | stop => cases he; exact runCommand_write1_write1 _ _ _ _ _ hb
  | turn dir => cases dir <;> cases he <;> exact runCommand_write1_write1 _ _ _ _ _ hb
  | ride dir => cases dir <;> cases he <;> exact runCommand_write1_write1 _ _ _ _ _ hb
  | led mask color =>
    cases he
    exact runCommand_sends hb (emitsOnly_of_mem_quadrants mask color _) (remaining_quadrants mask color)
  | init | setspd p | encWrite a d | encWrite3 a d0 d1 d2 | encRead a n => cases hi

/-! ### INIT -/

/-- From an idle block, with nine bytes in the transport, INIT completes. -/
theorem exec_init_of_fed {s : State} (hb : s.busy = false) (hr : 9 ≤ s.rx.length) :
    exec .init s =
      .next { s with trace := s.trace ++ Safety.initEvents (s.rx.take 9), rx := s.rx.drop 9 }.atRest := by
  have hrun := runOn_fed (s := accept .init (read1 addrStatus) s) rfl rfl (transmit (encReadFrame addrStatus 1)) rfl
    (emitsOnly_of_mem_transmit _) hr
  rw [remaining_afterStatus, remaining_statusRequest] at hrun
  calc exec .init s
      = .next (runOn (accept .init (read1 addrStatus) s)) := runCommand_of_idle _ _ hb
    _ = _ := by
      rw [hrun, Safety.initEvents, ← List.append_assoc, ← List.append_assoc]
      rfl

/-- The same with the reply named. -/
theorem exec_init_of_reply {s : State} {reply more : List Byte} (hb : s.busy = false) (hrx : s.rx = reply ++ more)
    (hlen : reply.length = 9) :
    exec .init s = .next { s with trace := s.trace ++ Safety.initEvents reply, rx := more }.atRest := by
  have hr : 9 ≤ s.rx.length := by simp [hrx, hlen]
  rw [exec_init_of_fed hb hr, hrx, List.take_left' hlen, List.drop_left' hlen]

/-- From an idle block, with fewer, it has sent its read request and waits. -/
theorem exec_init_of_starved {s : State} (hb : s.busy = false) (hr : s.rx.length < 9) :
    exec .init s =
      .next { s with
        trace := s.trace ++ Safety.sent (encReadFrame 0x02 1)
        busy := true, cmd := some .init, todo := [.receive], settle := 0, rxcount := 0 } := by
  have hrun := runOn_starved (s := accept .init (read1 addrStatus) s) rfl rfl (transmit (encReadFrame addrStatus 1))
    rfl (emitsOnly_of_mem_transmit _) hr
  rw [remaining_statusRequest] at hrun
  calc exec .init s
      = .next (runOn (accept .init (read1 addrStatus) s)) := runCommand_of_idle _ _ hb
    _ = _ := by rw [hrun]; rfl

/-! ### SETSPD and the encoders -/

theorem exec_setspd {s : State} (hb : s.busy = false) (p : Int) :
    exec (.setspd p) s = .next { s with cruise := (clamp p 0 100).toNat } := execSetspd_of_idle p hb

theorem exec_of_encodedFrame {i : Instr} {f : Frame} {s : State} (hb : s.busy = false)
    (hi : encodedFrame i = some f) : exec i s = .next { s with built := some f } := by
  cases i with
  | encWrite a d | encWrite3 a d0 d1 d2 | encRead a n => cases hi; exact runEncoder_of_idle _ hb
  | _ => cases hi

/-! ### Every instruction -/

theorem idle_atRest (s : State) : Safety.Idle s.atRest := ⟨rfl, rfl, rfl, rfl, rfl⟩

theorem exec_of_busy {s : State} (hb : s.busy = true) (i : Instr) : exec i s = .next s := by
  cases i with
  | setspd p => exact execSetspd_of_busy p hb
  | encWrite a d | encWrite3 a d0 d1 d2 | encRead a n => exact runEncoder_of_busy _ hb
  | init | height x | lean x | move dir x | rotate dir x | stop | led m c | turn dir | ride dir =>
    exact runCommand_of_busy _ _ hb

theorem instr_cases (i : Instr) (c : Nat) :
    i = .init ∨ (sendsFrames i = true ∧ ∃ evs, Safety.events c i = some evs) ∨ (∃ p, i = .setspd p) ∨
      ∃ f, encodedFrame i = some f := by
  cases i with
  | init => exact .inl rfl
  | setspd p => exact .inr (.inr (.inl ⟨p, rfl⟩))
  | encWrite a d | encWrite3 a d0 d1 d2 | encRead a n => exact .inr (.inr (.inr ⟨_, rfl⟩))
  | height x | lean x | stop | led m c => exact .inr (.inl ⟨rfl, _, rfl⟩)
  | move dir x | rotate dir x | turn dir | ride dir => cases dir <;> exact .inr (.inl ⟨rfl, _, rfl⟩)

/-- Everything an instruction can do: `Effect i s t` says how `t` comes from `s`. -/
inductive Effect (i : Instr) (s : State) : State → Prop
  | busy (hb : s.busy = true) : Effect i s s
  | initFed (hb : s.busy = false) (hi : i = .init) (hr : 9 ≤ s.rx.length) :
    Effect i s { s with trace := s.trace ++ Safety.initEvents (s.rx.take 9), rx := s.rx.drop 9 }.atRest
  | initStarved (hb : s.busy = false) (hi : i = .init) (hr : s.rx.length < 9) :
    Effect i s { s with
      trace := s.trace ++ Safety.sent (encReadFrame 0x02 1)
      busy := true, cmd := some .init, todo := [.receive], settle := 0, rxcount := 0 }
  | sends (evs : List Event) (hb : s.busy = false) (hi : sendsFrames i = true)
      (he : Safety.events s.cruise i = some evs) : Effect i s { s with trace := s.trace ++ evs }.atRest
  | setspd (p : Int) (hb : s.busy = false) (hi : i = .setspd p) :
    Effect i s { s with cruise := (clamp p 0 100).toNat }
  | encodes (f : Frame) (hb : s.busy = false) (hi : encodedFrame i = some f) :
    Effect i s { s with built := some f }

theorem exec_effect (i : Instr) (s : State) : ∃ t, exec i s = .next t ∧ Effect i s t := by
  obtain hb | hb := Bool.eq_false_or_eq_true s.busy
  · exact ⟨_, exec_of_busy hb i, .busy hb⟩
  · obtain rfl | ⟨hi, evs, he⟩ | ⟨p, rfl⟩ | ⟨f, hf⟩ := instr_cases i s.cruise
    · obtain hr | hr := Nat.lt_or_ge s.rx.length 9
      · exact ⟨_, exec_init_of_starved hb hr, .initStarved hb rfl hr⟩
      · exact ⟨_, exec_init_of_fed hb hr, .initFed hb rfl hr⟩
    · exact ⟨_, exec_of_sendsFrames hb hi he, .sends evs hb hi he⟩
    · exact ⟨_, exec_setspd hb p, .setspd p hb rfl⟩
    · exact ⟨_, exec_of_encodedFrame hb hf, .encodes f hb hf⟩

theorem effect_of_exec {i : Instr} {s t : State} (h : exec i s = .next t) : Effect i s t := by
  obtain ⟨t', h', he⟩ := exec_effect i s
  cases h.symm.trans h'
  exact he

end Sys2Proof.Proofs
end

section
/-! The commands (42_system_commands.md, 43_motion_posture.md, 44_led_color.md, 70_reset_and_hazards.md section 4):
the result of each from an idle block, the port's clamp, the pseudo-commands, and the delays. -/

namespace Sys2Proof.Proofs

open Sys2Proof.Machine

/-! ### Device bytes -/

theorem isByteOf_deviceByte {x : Int} (h : 0 ≤ x ∧ x ≤ 255) : Safety.IsByteOf (deviceByte x) x := by
  obtain ⟨hlo, hhi⟩ := h
  rw [Safety.IsByteOf, deviceByte, BitVec.toNat_ofInt]
  omega

theorem fwd_mem {v : Int} (hv : v ≤ 100) : -100 ≤ fwd v ∧ fwd v ≤ 100 := by
  have hlo := neg_ten_le_fwd hv
  have hhi := fwd_nonpos v
  omega

theorem bwd_mem (v : Int) : -100 ≤ bwd v ∧ bwd v ≤ 100 := by
  have hlo := bwd_nonneg v
  have hhi : bwd v ≤ 100 := min_le_right _ _
  omega

theorem isByteOf_remap100 {v : Int} (h : -100 ≤ v ∧ v ≤ 100) :
    Safety.IsByteOf (deviceByte (remap100 v)) (remap100 v) :=
  isByteOf_deviceByte (remap100_mem h.1 h.2)

theorem neg_mem_of_mem {v : Int} (h : -100 ≤ v ∧ v ≤ 100) : -100 ≤ -v ∧ -v ≤ 100 := by omega

theorem cruise_mem {c : Nat} (h : c ≤ 100) : -100 ≤ (c : Int) ∧ (c : Int) ≤ 100 := by omega

/-! ### The results of the commands -/

/-- Settles O27 (43_motion_posture.md section 1). -/
theorem heightSendsItsByte : Obligations.HeightSendsItsByte := by
  refine ⟨fun h s hb => ?_, by decide, by decide, by decide⟩
  obtain ⟨hlo, hhi⟩ := clamp_mem (v := h) (lo := -20) (hi := 20) (by decide)
  exact ⟨_, isByteOf_deviceByte (remap20_mem hlo hhi), exec_of_sendsFrames hb rfl rfl⟩

/-- Settles O28 (43_motion_posture.md section 1). -/
theorem leanSendsItsByte : Obligations.LeanSendsItsByte :=
  ⟨fun _ _ hb => ⟨_, isByteOf_remap100 (clamp_mem (by decide)), exec_of_sendsFrames hb rfl rfl⟩,
    by decide, by decide, by decide, by decide⟩

/-- Settles O29: both transforms of a clamped speed lie in the remap's domain (43_motion_posture.md section 2). -/
theorem moveSendsItsByte : Obligations.MoveSendsItsByte := by
  intro v s hb
  have hv : clamp v 0 100 ≤ 100 := (clamp_mem (by decide)).2
  exact ⟨⟨_, isByteOf_remap100 (fwd_mem hv), exec_of_sendsFrames hb rfl rfl⟩,
    ⟨_, isByteOf_remap100 (bwd_mem _), exec_of_sendsFrames hb rfl rfl⟩⟩

/-- Settles O32 (43_motion_posture.md section 3). -/
theorem rotateSendsItsByte : Obligations.RotateSendsItsByte := by
  intro v s hb
  have hv : -100 ≤ clamp v (-100) 100 ∧ clamp v (-100) 100 ≤ 100 := clamp_mem (by decide)
  exact ⟨⟨_, isByteOf_remap100 (neg_mem_of_mem hv), exec_of_sendsFrames hb rfl rfl⟩,
    ⟨_, isByteOf_remap100 hv, exec_of_sendsFrames hb rfl rfl⟩⟩

/-- Settles O34: the literal frames are those of the byte of zero (43_motion_posture.md section 3). -/
theorem stopSendsTwoFrames : Obligations.StopSendsTwoFrames :=
  ⟨fun _ hb => exec_of_sendsFrames hb rfl rfl, by decide⟩

/-- Settles O35 (44_led_color.md). -/
theorem ledWritesSelectedQuadrants : Obligations.LedWritesSelectedQuadrants := by
  refine ⟨fun mask color s hb => exec_of_sendsFrames hb rfl rfl, fun color s hb => ?_⟩
  have hnone : Safety.events s.cruise (.led 0 color) = some [] := rfl
  rw [exec_of_sendsFrames hb rfl hnone, List.append_nil]

/-- Settles O37 (43_motion_posture.md section 4). -/
theorem rideMovesAtCruiseSpeed : Obligations.RideMovesAtCruiseSpeed := by
  intro s hb hc
  exact ⟨⟨_, isByteOf_remap100 (fwd_mem (cruise_mem hc).2), exec_of_sendsFrames hb rfl rfl⟩,
    ⟨_, isByteOf_remap100 (bwd_mem _), exec_of_sendsFrames hb rfl rfl⟩⟩

/-- Settles O38 (43_motion_posture.md section 4). -/
theorem turnRotatesAtCruiseSpeed : Obligations.TurnRotatesAtCruiseSpeed := by
  intro s hb hc
  exact ⟨⟨_, isByteOf_remap100 (neg_mem_of_mem (cruise_mem hc)), exec_of_sendsFrames hb rfl rfl⟩,
    ⟨_, isByteOf_remap100 (cruise_mem hc), exec_of_sendsFrames hb rfl rfl⟩⟩

/-- Settles O39: the nine bytes named, and the frames written out (42_system_commands.md section 1). -/
theorem initReadsStatusAndTriggers : Obligations.InitReadsStatusAndTriggers := by
  intro s r0 r1 r2 r3 r4 st r6 r7 r8 more hb hrx
  exact exec_init_of_reply (reply := [r0, r1, r2, r3, r4, st, r6, r7, r8]) hb hrx rfl

/-- Settles O40 (60_exceptions.md section 4). -/
theorem initWaitsForNineBytes : Obligations.InitWaitsForNineBytes := fun _ hb hr => exec_init_of_starved hb hr

/-- Settles O36 (42_system_commands.md section 2). -/
theorem setspdStoresClampedSpeed : Obligations.SetspdStoresClampedSpeed := by
  refine ⟨fun p s hb => exec_setspd hb p, fun p => ⟨fun h => ?_, fun h => ?_, fun hlo hhi => ?_⟩, by decide, by decide,
    by decide⟩
  · rw [clamp_of_lt h]; rfl
  · rw [clamp_of_gt (by decide) h]; rfl
  · rw [clamp_of_mem hlo hhi, Int.toNat_of_nonneg hlo]

/-- Settles O41 (40_frame_codec.md section 2). -/
theorem encodersReturnTheirFrames : Obligations.EncodersReturnTheirFrames := fun _ hb =>
  ⟨fun _ _ => exec_of_encodedFrame hb rfl, fun _ _ _ _ => exec_of_encodedFrame hb rfl,
    fun _ _ => exec_of_encodedFrame hb rfl⟩

/-! ### Instructions that do the same -/

/-- Commands with the same events do the same, from every state. -/
theorem exec_eq_of_events_eq {i j : Instr} {evs : List Event} {s : State} (hi : sendsFrames i = true)
    (hj : sendsFrames j = true) (hei : Safety.events s.cruise i = some evs)
    (hej : Safety.events s.cruise j = some evs) : exec i s = exec j s := by
  obtain hb | hb := Bool.eq_false_or_eq_true s.busy
  · rw [exec_of_busy hb, exec_of_busy hb]
  · rw [exec_of_sendsFrames hb hi hei, exec_of_sendsFrames hb hj hej]

theorem exec_setspd_clamp (p : Int) (s : State) : exec (.setspd p) s = exec (.setspd (clamp p 0 100)) s := by
  obtain hb | hb := Bool.eq_false_or_eq_true s.busy
  · rw [exec_of_busy hb, exec_of_busy hb]
  · rw [exec_setspd hb, exec_setspd hb, clamp_clamp (by decide)]

/-- Settles O33: negating and clamping to symmetric bounds commute (43_motion_posture.md section 3). -/
theorem rotateDirectionsMirror : Obligations.RotateDirectionsMirror := by
  intro v s
  have hneg : clamp (-v) (-100) 100 = -clamp v (-100) 100 := by
    rw [clamp_eq_max_min (by decide), clamp_eq_max_min (by decide)]
    omega
  exact exec_eq_of_events_eq rfl rfl rfl (by rw [Safety.events, hneg])

/-- Settles O42: a clamped operand is clamped to itself (30_encoding.md section 5). -/
theorem operandsAreClampedAtThePort : Obligations.OperandsAreClampedAtThePort := by
  intro x s
  refine ⟨?_, ?_, fun dir => ?_, fun dir => ?_, exec_setspd_clamp x s⟩
  · exact exec_eq_of_events_eq rfl rfl rfl (by rw [Safety.events, clamp_clamp (by decide)])
  · exact exec_eq_of_events_eq rfl rfl rfl (by rw [Safety.events, clamp_clamp (by decide)])
  · cases dir <;> exact exec_eq_of_events_eq rfl rfl rfl (by rw [Safety.events, clamp_clamp (by decide)])
  · cases dir <;> exact exec_eq_of_events_eq rfl rfl rfl (by rw [Safety.events, clamp_clamp (by decide)])

/-! ### The pseudo-commands -/

theorem leanLeftSign_eq : Config.leanLeftSign = 1 ∨ Config.leanLeftSign = -1 := by
  rw [Config.leanLeftSign]
  split
  · exact .inl rfl
  · exact .inr rfl

/-- Every expansion's operand fits a signed byte, whichever the sign of lean-left is. -/
theorem expand_wellFormed (q : Pseudo) : (expand q).WellFormed := by
  cases q with
  | stretch x | shrink x => exact decide_eq_true (by omega)
  | leanL d | leanR d =>
    apply decide_eq_true
    obtain h | h := leanLeftSign_eq <;> rw [h] <;> omega

/-- Settles O43 (43_motion_posture.md section 5). -/
theorem pseudoCommandsExpand : Obligations.PseudoCommandsExpand := by
  refine ⟨fun x => ⟨rfl, rfl⟩, ?_, expand_wellFormed, by decide, by decide, rfl, ?_, ?_⟩
  · obtain h | h := leanLeftSign_eq
    · exact .inl fun d => by simp [expand, h]
    · exact .inr fun d => by simp [expand, h]
  · simp [expand]
  · simp [expand]

/-! ### The delays -/

theorem waits_ite_sent (b : Bool) (f : Frame) :
    Safety.waits (if b then Safety.sent f else []) = List.replicate b.toNat 100 := by
  cases b
  · rfl
  · exact waits_sent f

theorem waits_ledEvents (mask : BitVec 4) (color : BitVec 24) :
    Safety.waits (Safety.ledEvents mask color) =
      List.replicate ((mask.getLsbD 0).toNat + (mask.getLsbD 1).toNat + (mask.getLsbD 2).toNat +
        (mask.getLsbD 3).toNat) 100 := by
  simp only [Safety.ledEvents, waits_append, waits_ite_sent, List.replicate_add]

/-- The delays of an instruction are those of the events it adds to the trace. -/
theorem execWaits_of_next {i : Instr} {s t : State} {evs : List Event} {ws : List Nat} (h : exec i s = .next t)
    (ht : t.trace = s.trace ++ evs) (hw : Safety.waits evs = ws) : Safety.ExecWaits i s ws ws.sum :=
  ⟨t, evs, h, ht, hw, by rw [Safety.delay, hw]⟩

theorem execWaits_of_sendsFrames {i : Instr} {evs : List Event} {s : State} {ws : List Nat} (hb : s.busy = false)
    (hi : sendsFrames i = true) (he : Safety.events s.cruise i = some evs) (hw : Safety.waits evs = ws) :
    Safety.ExecWaits i s ws ws.sum :=
  execWaits_of_next (exec_of_sendsFrames hb hi he) rfl hw

theorem execWaits_of_encodedFrame {i : Instr} {f : Frame} {s : State} (hb : s.busy = false)
    (hi : encodedFrame i = some f) : Safety.ExecWaits i s [] 0 :=
  execWaits_of_next (exec_of_encodedFrame hb hi) (List.append_nil _).symm rfl

theorem waits_sent_append_sent (f g : Frame) : Safety.waits (Safety.sent f ++ Safety.sent g) = [100, 100] := by
  rw [waits_append, waits_sent, waits_sent]
  rfl

/-- INIT's delays, by the status byte of the reply (70_reset_and_hazards.md section 4). -/
theorem waits_initEvents (reply : List Byte) :
    Safety.waits (Safety.initEvents reply) = if reply.getD 5 0 = 0x00 then [100] else [100, 100, 1000] := by
  rw [Safety.initEvents, waits_append, waits_append, waits_sent]
  split
  · rfl
  · rw [waits_append, waits_sent]; rfl

theorem getD_take_nine (l : List Byte) : (l.take 9).getD 5 0 = l.getD 5 0 := by
  simp [List.getD_eq_getElem?_getD]

theorem execWaits_init_of_fed {s : State} {ws : List Nat} (hb : s.busy = false) (hr : 9 ≤ s.rx.length)
    (hw : (if s.rx.getD 5 0 = 0x00 then [100] else [100, 100, 1000]) = ws) :
    Safety.ExecWaits .init s ws ws.sum :=
  execWaits_of_next (exec_init_of_fed hb hr) rfl (by rw [waits_initEvents, getD_take_nine, hw])

/-- Settles O44, from the events that each instruction adds to the trace (70_reset_and_hazards.md section 4). -/
theorem commandDelays : Obligations.CommandDelays := by
  intro s hb
  refine ⟨fun p => execWaits_of_next (exec_setspd hb p) (List.append_nil _).symm rfl,
    fun h => execWaits_of_sendsFrames hb rfl rfl (waits_sent _),
    fun a => execWaits_of_sendsFrames hb rfl rfl (waits_sent _),
    fun dir v => ?_, fun dir v => ?_,
    execWaits_of_sendsFrames hb rfl rfl (waits_sent_append_sent _ _),
    fun dir => ?_, fun dir => ?_, fun mask color k hk => ?_,
    fun hr hst => execWaits_init_of_fed hb hr (if_pos hst),
    fun hr hst => execWaits_init_of_fed hb hr (if_neg hst),
    fun hr => execWaits_of_next (exec_init_of_starved hb hr) rfl (waits_sent _),
    fun a d => execWaits_of_encodedFrame hb rfl,
    fun a d0 d1 d2 => execWaits_of_encodedFrame hb rfl,
    fun a n => execWaits_of_encodedFrame hb rfl⟩
  · cases dir <;> exact execWaits_of_sendsFrames hb rfl rfl (waits_sent _)
  · cases dir <;> exact execWaits_of_sendsFrames hb rfl rfl (waits_sent _)
  · cases dir <;> exact execWaits_of_sendsFrames hb rfl rfl (waits_sent_append_sent _ _)
  · cases dir <;> exact execWaits_of_sendsFrames hb rfl rfl (waits_sent_append_sent _ _)
  · have h := execWaits_of_sendsFrames (i := .led mask color) hb rfl rfl (waits_ledEvents mask color)
    rwa [← hk, List.sum_replicate, smul_eq_mul, Nat.mul_comm] at h

end Sys2Proof.Proofs
end

section
/-! The whole instruction set (10_state.md, 60_exceptions.md): what each instruction leaves unchanged, what it does
not depend on, and what becomes of the block. -/

namespace Sys2Proof.Proofs

open Sys2Proof.Machine

/-! ### What no instruction changes, and what only some do -/

theorem Effect.pending_eq {i : Instr} {s t : State} (h : Effect i s t) : t.pending = s.pending := by
  cases h <;> rfl

theorem Effect.trace_prefix {i : Instr} {s t : State} (h : Effect i s t) : s.trace <+: t.trace := by
  cases h with
  | busy | setspd | encodes => exact List.prefix_rfl
  | initFed | initStarved | sends => exact List.prefix_append _ _

/-- CRUISE is written by SETSPD alone. -/
theorem Effect.cruise_eq {i : Instr} {s t : State} (h : Effect i s t) (hi : ∀ p, i ≠ .setspd p) :
    t.cruise = s.cruise := by
  cases h with
  | setspd p _ hp => exact absurd hp (hi p)
  | busy | initFed | initStarved | sends | encodes => rfl

/-- The receive stream is read by INIT alone, nine bytes or none. -/
theorem Effect.rx_cases {i : Instr} {s t : State} (h : Effect i s t) :
    t.rx = s.rx ∨ i = .init ∧ 9 ≤ s.rx.length ∧ t.rx = s.rx.drop 9 := by
  cases h with
  | initFed _ hi hr => exact .inr ⟨hi, hr, rfl⟩
  | busy | initStarved | sends | setspd | encodes => exact .inl rfl

/-- The codec result is written by the encoders alone. -/
theorem Effect.built_eq {i : Instr} {s t : State} (h : Effect i s t) (hi : ∀ f, encodedFrame i ≠ some f) :
    t.built = s.built := by
  cases h with
  | encodes f _ hf => exact absurd hf (hi f)
  | busy | initFed | initStarved | sends | setspd => rfl

/-- Instructions that neither send frames nor read a reply emit nothing. -/
theorem Effect.trace_eq {i : Instr} {s t : State} (h : Effect i s t) (hi : sendsFrames i = false) (hinit : i ≠ .init) :
    t.trace = s.trace := by
  cases h with
  | initFed _ hi' | initStarved _ hi' => exact absurd hi' hinit
  | sends _ _ hi' => exact absurd (hi.symm.trans hi') nofun
  | busy | setspd | encodes => rfl

theorem encoder_of_encodedFrame {i : Instr} {f : Frame} (h : encodedFrame i = some f) :
    (∃ a d, i = .encWrite a d) ∨ (∃ a d0 d1 d2, i = .encWrite3 a d0 d1 d2) ∨ ∃ a n, i = .encRead a n := by
  cases i with
  | encWrite a d => exact .inl ⟨a, d, rfl⟩
  | encWrite3 a d0 d1 d2 => exact .inr (.inl ⟨a, d0, d1, d2, rfl⟩)
  | encRead a n => exact .inr (.inr ⟨a, n, rfl⟩)
  | _ => cases h

/-- Settles O45, effect by effect. -/
theorem instructionFrames : Obligations.InstructionFrames := by
  intro i s t h
  have heff := effect_of_exec h
  refine ⟨heff.pending_eq, heff.trace_prefix, heff.cruise_eq, fun hi => ?_, fun _ => ?_, fun h1 h3 hr => ?_, ?_⟩
  · exact heff.rx_cases.resolve_right fun hinit => hi hinit.1
  · exact heff.rx_cases.imp_right And.right
  · refine heff.built_eq fun f hf => ?_
    obtain ⟨a, d, rfl⟩ | ⟨a, d0, d1, d2, rfl⟩ | ⟨a, n, rfl⟩ := encoder_of_encodedFrame hf
    · exact h1 a d rfl
    · exact h3 a d0 d1 d2 rfl
    · exact hr a n rfl
  · rintro (⟨p, rfl⟩ | ⟨a, d, rfl⟩ | ⟨a, d0, d1, d2, rfl⟩ | ⟨a, n, rfl⟩) <;> exact heff.trace_eq rfl nofun

/-! ### What an instruction does not depend on -/

theorem events_cruise {i : Instr} (hride : ∀ dir, i ≠ .ride dir) (hturn : ∀ dir, i ≠ .turn dir) (c c' : Nat) :
    Safety.events c i = Safety.events c' i := by
  cases i with
  | ride dir => exact absurd rfl (hride dir)
  | turn dir => exact absurd rfl (hturn dir)
  | move dir v | rotate dir v => cases dir <;> rfl
  | _ => rfl

/-- Settles O46: the other commands' events are the same for every CRUISE (10_state.md section 4). -/
theorem onlyRideAndTurnReadCruise : Obligations.OnlyRideAndTurnReadCruise := by
  intro i s t c hride hturn hsetspd h
  cases effect_of_exec h with
  | busy hb => exact exec_of_busy (s := { s with cruise := c }) hb i
  | initFed hb hi hr => subst hi; exact exec_init_of_fed (s := { s with cruise := c }) hb hr
  | initStarved hb hi hr => subst hi; exact exec_init_of_starved (s := { s with cruise := c }) hb hr
  | sends evs hb hi he =>
    rw [events_cruise hride hturn s.cruise c] at he
    exact exec_of_sendsFrames (s := { s with cruise := c }) hb hi he
  | setspd p hb hi => exact absurd hi (hsetspd p)
  | encodes f hb hi => exact exec_of_encodedFrame (s := { s with cruise := c }) hb hi

/-- INIT's events depend on the reply's byte at offset 5, but for the record of the bytes. -/
theorem hideReply_initEvents {r r' : List Byte} (h : r.getD 5 0 = r'.getD 5 0) :
    (Safety.initEvents r).map Safety.hideReply = (Safety.initEvents r').map Safety.hideReply := by
  simp only [Safety.initEvents, h, List.map_append, List.map_cons, Safety.hideReply]

/-- Settles O47 (30_encoding.md section 1). -/
theorem onlyTheStatusByteMatters : Obligations.OnlyTheStatusByteMatters := by
  intro s t t' r r' more hr hr' hst h h' hb
  cases h.symm.trans (exec_init_of_reply (s := { s with rx := r ++ more }) hb rfl hr)
  cases h'.symm.trans (exec_init_of_reply (s := { s with rx := r' ++ more }) hb rfl hr')
  exact ⟨by simp [hideReply_initEvents hst], rfl⟩

/-! ### What becomes of the block -/

/-- Settles O48 (60_exceptions.md sections 1 and 4). -/
theorem everyInstructionCompletesOrWaits : Obligations.EveryInstructionCompletesOrWaits := by
  intro i s
  obtain ⟨t, h, heff⟩ := exec_effect i s
  refine ⟨t, h, ?_⟩
  cases heff with
  | busy hb => exact ⟨fun hb' => .inl hb', fun hidle => .inl hidle⟩
  | initStarved hb hi hr =>
    exact ⟨fun _ => .inr ⟨hi, hr, ⟨rfl, rfl, rfl, rfl, rfl⟩, hr⟩,
      fun _ => .inr ⟨hi, hr, ⟨rfl, rfl, rfl, rfl, rfl⟩, hr⟩⟩
  | initFed | sends => exact ⟨fun _ => .inl rfl, fun _ => .inl (idle_atRest _)⟩
  | setspd p hb | encodes f hb => exact ⟨fun _ => .inl hb, fun hidle => .inl hidle⟩

/-- Settles O49 (10_state.md section 2). -/
theorem busyBlockAcceptsNothing : Obligations.BusyBlockAcceptsNothing := by
  intro s hb
  obtain ⟨-, hpending, -⟩ := runOn_frame s
  exact ⟨exec_of_busy hb, runOn s, if_pos hb, hpending⟩

end Sys2Proof.Proofs
end

section
/-! The step and the run (10_state.md section 2, 20_memory.md section 6, 60_exceptions.md, 70_reset_and_hazards.md):
what a step runs and refuses, a blocked read, the invariant, and the trace of a run. -/

namespace Sys2Proof.Proofs

open Sys2Proof.Machine

/-! ### The step, case by case -/

theorem step_of_busy {s : State} (hb : s.busy = true) : step s = .next (runOn s) := if_pos hb

theorem step_of_noOffer {s : State} (hb : s.busy = false) (hp : s.pending = []) : step s = .next s := by
  simp [step, hb, fetch_nil hp]

theorem step_of_decode {s : State} {o : Offer} {rest : List Offer} {i : Instr} (hb : s.busy = false)
    (hp : s.pending = o :: rest) (hd : decode o = .ok i) : step s = exec i { s with pending := rest } := by
  simp [step, hb, fetch_cons hp, hd]

theorem step_withFetchWord {nbits w : Nat} {i : Instr} (h : decodeTableWord nbits w = some i) (s : State) :
    step (s.withFetchWord nbits w) = exec i s.atRest := by
  have hd : decode (tableOffer nbits w) = .ok i := by
    unfold decodeTableWord at h
    split at h
    next j hj => cases h; exact hj
    next => cases h
  exact step_of_decode rfl rfl hd

/-- Settles O50 (10_state.md section 2). -/
theorem stepRunsTheDecodedInstruction : Obligations.StepRunsTheDecodedInstruction :=
  ⟨fun _ _ _ _ => step_of_decode, fun _ => step_of_noOffer, fun s _ _ _ h => step_withFetchWord h s⟩

/-- Settles O51: of the four things a step can do, one refuses (30_encoding.md section 6). -/
theorem stepRefusesOnlyWhatDoesNotDecode : Obligations.StepRefusesOnlyWhatDoesNotDecode := by
  intro s
  obtain ⟨hb, h⟩ | ⟨hb, hp, h⟩ | ⟨hb, o, rest, i, hp, hd, h⟩ | ⟨hb, o, rest, r, hp, hd, h⟩ := step_cases s
  · simp [h, hb]
  · simp [h, hp]
  · obtain ⟨t, he, -⟩ := exec_effect i { s with pending := rest }
    simp [h, he, hp, hd]
  · cases r <;> simp [h, hb, hp, hd, refuse, eq_comm]

/-! ### A blocked read -/

theorem runOn_of_stuck {s : State} (h : Safety.Stuck s) : runOn s = s := by
  obtain ⟨⟨hb, -, ht, hs, -⟩, hr⟩ := h
  exact ticks_of_starved hb hs ht hr _

/-- What follows the bytes taken, for a block in INIT's read. -/
theorem runOn_of_lifted {s : State} (h : Safety.Waiting s) (hr : 9 ≤ s.rx.length) :
    runOn s = { s with
      trace := s.trace ++ [Event.rx (s.rx.take 9)] ++
        (if s.rx.getD 5 0 = 0x00 then [] else Safety.sent (encWriteFrame 0x3E 0xFF) ++ [Event.wait 1000])
      rx := s.rx.drop 9 }.atRest := by
  obtain ⟨hb, -, ht, hs, -⟩ := h
  rw [runOn_fed hb hs [] ht nofun hr, remaining_afterStatus, replyByte, replyOff, getD_take_nine, Safety.remaining,
    List.append_nil]

/-- Settles O52 (60_exceptions.md section 4). -/
theorem stuckBlockStays : Obligations.StuckBlockStays := by
  intro s os h
  have hb : s.busy = true := h.1.1
  exact ⟨(step_of_busy (s := { s with pending := os }) hb).trans
    (congrArg _ (runOn_of_stuck (s := { s with pending := os }) h)), exec_of_busy hb⟩

/-- Settles O53 (60_exceptions.md section 4). -/
theorem receiveBytesLiftTheBlock : Obligations.ReceiveBytesLiftTheBlock := by
  intro s bs h hr
  rw [step_of_busy (s := s.supplyRx bs) h.1, runOn_of_lifted (s := s.supplyRx bs) h hr]
  rfl

/-! ### Legal traces -/

theorem legalTrace_nil : Safety.LegalTrace [] := ⟨[], nofun, rfl⟩

theorem legalTrace_append {l m : List Event} (hl : Safety.LegalTrace l) (hm : Safety.LegalTrace m) :
    Safety.LegalTrace (l ++ m) := by
  obtain ⟨ts, hts, rfl⟩ := hl
  obtain ⟨us, hus, rfl⟩ := hm
  exact ⟨ts ++ us, List.forall_mem_append.mpr ⟨hts, hus⟩, List.flatMap_append.symm⟩

theorem legalTrace_of_transfer (t : Safety.Transfer) (h : t.permitted = true) : Safety.LegalTrace t.events :=
  ⟨[t], List.forall_mem_singleton.mpr h, (List.append_nil _).symm⟩

theorem legalTrace_ite_write3 (b : Bool) (a d0 d1 d2 : Byte)
    (h : (Safety.Transfer.write3 a d0 d1 d2).permitted = true) :
    Safety.LegalTrace (if b then Safety.sent (encWrite3Frame a d0 d1 d2) else []) := by
  cases b
  · exact legalTrace_nil
  · exact legalTrace_of_transfer (.write3 a d0 d1 d2) h

/-- Every instruction's own events are legal: it writes to its own addresses. -/
theorem legalTrace_events {c : Nat} {i : Instr} {evs : List Event} (h : Safety.events c i = some evs) :
    Safety.LegalTrace evs := by
  cases i with
  | init => cases h
  | height x => cases h; exact legalTrace_of_transfer (.write1 0x35 _) rfl
  | lean x => cases h; exact legalTrace_of_transfer (.write1 0x36 _) rfl
  | move dir x => cases dir <;> cases h <;> exact legalTrace_of_transfer (.write1 0x30 _) rfl
  | rotate dir x => cases dir <;> cases h <;> exact legalTrace_of_transfer (.write1 0x32 _) rfl
  | stop =>
    cases h
    exact legalTrace_append (legalTrace_of_transfer (.write1 0x30 _) rfl) (legalTrace_of_transfer (.write1 0x32 _) rfl)
  | turn dir =>
    cases dir <;> cases h <;>
      exact legalTrace_append (legalTrace_of_transfer (.write1 0x32 _) rfl)
        (legalTrace_of_transfer (.write1 0x32 _) rfl)
  | ride dir =>
    cases dir <;> cases h <;>
      exact legalTrace_append (legalTrace_of_transfer (.write1 0x32 _) rfl)
        (legalTrace_of_transfer (.write1 0x30 _) rfl)
  | led mask color =>
    cases h
    refine legalTrace_append (legalTrace_append (legalTrace_append ?_ ?_) ?_) ?_ <;>
      exact legalTrace_ite_write3 _ _ _ _ _ rfl
  | setspd p | encWrite a d | encWrite3 a d0 d1 d2 | encRead a n => cases h; exact legalTrace_nil

theorem legalTrace_statusRequest : Safety.LegalTrace (Safety.sent (encReadFrame 0x02 1)) :=
  legalTrace_of_transfer (.request 0x02) rfl

/-- The bytes of a reply, and what INIT does about it. -/
theorem legalTrace_reply {reply : List Byte} (hlen : reply.length = 9) (st : Byte) :
    Safety.LegalTrace ([.rx reply] ++
      (if st = 0x00 then [] else Safety.sent (encWriteFrame 0x3E 0xFF) ++ [.wait 1000])) := by
  apply legalTrace_append (legalTrace_of_transfer (.reply reply) (by simp [Safety.Transfer.permitted, hlen]))
  split
  · exact legalTrace_nil
  · exact legalTrace_append (legalTrace_of_transfer (.write1 0x3E 0xFF) rfl) (legalTrace_of_transfer .initPause rfl)

theorem legalTrace_initEvents {reply : List Byte} (hlen : reply.length = 9) :
    Safety.LegalTrace (Safety.initEvents reply) := by
  rw [Safety.initEvents, List.append_assoc]
  exact legalTrace_append legalTrace_statusRequest (legalTrace_reply hlen _)

/-! ### The invariant -/

theorem inv_of_idle {s : State} (hc : s.cruise ≤ 100) (hi : Safety.Idle s) (ht : Safety.LegalTrace s.trace) :
    Safety.Inv s :=
  ⟨hc, .inl hi, ht, fun hb => absurd (hi.1.symm.trans hb) nofun⟩

theorem waiting_of_inv {s : State} (h : Safety.Inv s) (hb : s.busy = true) : Safety.Waiting s := by
  obtain ⟨-, hidle | hwait, -, -⟩ := h
  · exact absurd (hidle.1.symm.trans hb) nofun
  · exact hwait

theorem idle_of_inv {s : State} (h : Safety.Inv s) (hb : s.busy = false) : Safety.Idle s := by
  obtain ⟨-, hidle | hwait, -, -⟩ := h
  · exact hidle
  · exact absurd (hb.symm.trans hwait.1) nofun

/-- Going on with a waiting INIT: it stays, or completes with a reply. -/
theorem inv_runOn {s : State} (h : Safety.Inv s) (hb : s.busy = true) : Safety.Inv (runOn s) := by
  have hwait := waiting_of_inv h hb
  obtain hr | hr := Nat.lt_or_ge s.rx.length 9
  · rwa [runOn_of_stuck ⟨hwait, hr⟩]
  · obtain ⟨hc, -, ht, -⟩ := h
    rw [runOn_of_lifted hwait hr, List.append_assoc]
    exact inv_of_idle hc (idle_atRest _)
      (legalTrace_append ht (legalTrace_reply (List.length_take_of_le hr) _))

theorem inv_of_effect {i : Instr} {s t : State} (h : Safety.Inv s) (heff : Effect i s t) : Safety.Inv t := by
  have ⟨hc, _, ht, _⟩ := h
  cases heff with
  | busy => exact h
  | initFed hb hi hr =>
    exact inv_of_idle hc (idle_atRest _)
      (legalTrace_append ht (legalTrace_initEvents (List.length_take_of_le hr)))
  | initStarved =>
    exact ⟨hc, .inr ⟨rfl, rfl, rfl, rfl, rfl⟩, legalTrace_append ht legalTrace_statusRequest, fun _ => ⟨s.trace, rfl⟩⟩
  | sends evs hb hi he =>
    exact inv_of_idle hc (idle_atRest _) (legalTrace_append ht (legalTrace_events he))
  | setspd p hb =>
    have hp : (clamp p 0 100).toNat ≤ 100 := Int.toNat_le.mpr (clamp_mem (by decide)).2
    exact inv_of_idle hp (idle_of_inv (s := s) h hb) ht
  | encodes f hb => exact inv_of_idle hc (idle_of_inv (s := s) h hb) ht

/-- Settles O54: the reset trace is empty. -/
theorem invariantHoldsAtReset : Obligations.InvariantHoldsAtReset :=
  inv_of_idle (by decide) (by decide) legalTrace_nil

/-- Settles O55, by what a step can do: go on with an INIT, stay, or run an instruction, whose effects each keep the
invariant. -/
theorem stepKeepsTheInvariant : Obligations.StepKeepsTheInvariant := by
  intro s t hinv h
  obtain ⟨hb, hs⟩ | ⟨-, -, hs⟩ | ⟨-, o, rest, i, -, -, hs⟩ | ⟨-, o, rest, r, -, -, hs⟩ := step_cases s
  · cases h.symm.trans hs
    exact inv_runOn hinv hb
  · cases h.symm.trans hs
    exact hinv
  · exact inv_of_effect (s := { s with pending := rest }) hinv (effect_of_exec (hs.symm.trans h))
  · cases h.symm.trans hs

theorem assertReset_of_idle {s : State} (hb : s.busy = false) :
    s.assertReset = .next { State.reset with rx := s.rx, pending := s.pending } := by
  simp [State.assertReset, hb]

theorem assertReset_of_busy {s : State} (hb : s.busy = true) : s.assertReset = .refused .resetWhileBusy := if_pos hb

/-- Settles O56: the invariant does not speak of the environment's streams (10_state.md section 8). -/
theorem environmentKeepsTheInvariant : Obligations.EnvironmentKeepsTheInvariant := by
  intro s hinv
  refine ⟨fun o => hinv, fun bs => hinv, fun t h => ?_⟩
  obtain hb | hb := Bool.eq_false_or_eq_true s.busy
  · cases h.symm.trans (assertReset_of_busy hb)
  · cases h.symm.trans (assertReset_of_idle hb)
    exact invariantHoldsAtReset

/-- Settles O57 (70_reset_and_hazards.md section 1). -/
theorem resetLeavesTheResetState : Obligations.ResetLeavesTheResetState :=
  ⟨⟨rfl, by decide, rfl⟩, fun _ hb => ⟨_, assertReset_of_idle hb, rfl, ⟨rfl, rfl, rfl, rfl, rfl⟩, rfl, rfl, rfl⟩,
    fun _ => assertReset_of_busy⟩

/-! ### Runs -/

theorem trace_prefix_step {s t : State} (h : step s = .next t) : s.trace <+: t.trace := by
  obtain ⟨-, hs⟩ | ⟨-, -, hs⟩ | ⟨-, o, rest, i, -, -, hs⟩ | ⟨-, o, rest, r, -, -, hs⟩ := step_cases s
  · cases h.symm.trans hs
    exact trace_prefix_runOn s
  · cases h.symm.trans hs
    exact List.prefix_rfl
  · exact (effect_of_exec (hs.symm.trans h)).trace_prefix
  · cases h.symm.trans hs

theorem run_succ_of_step {s s' : State} (h : step s = .next s') (n : Nat) :
    Sys2Proof.core.run (n + 1) s = Sys2Proof.core.run n s' := by
  have hstep : Sys2Proof.core.step s = .next s' := h
  simp only [Host.Core.run, hstep]

/-- A run of one step more that answers a next state begins with a step that does. -/
theorem run_succ_cases {s t : State} {n : Nat} (h : Sys2Proof.core.run (n + 1) s = .next t) :
    ∃ s', step s = .next s' ∧ Sys2Proof.core.run n s' = .next t := by
  cases hs : step s with
  | next s' => exact ⟨s', rfl, (run_succ_of_step hs n).symm.trans h⟩
  | fault f =>
    have hstep : Sys2Proof.core.step s = .fault f := hs
    simp [Host.Core.run, hstep] at h
  | refused r =>
    have hstep : Sys2Proof.core.step s = .refused r := hs
    simp [Host.Core.run, hstep] at h

/-- Settles O59, by induction on the steps (20_memory.md section 6). -/
theorem runsOnlyExtendTheTrace : Obligations.RunsOnlyExtendTheTrace := by
  intro n
  induction n with
  | zero => intro s t h; cases h; exact List.prefix_rfl
  | succ n ih =>
    intro s t h
    obtain ⟨s', hstep, hrun⟩ := run_succ_cases h
    exact (trace_prefix_step hstep).trans (ih s' t hrun)

/-! ### A run's events -/

theorem cruiseAfter_of_sendsFrames {i : Instr} (h : sendsFrames i = true) (c : Nat) : Safety.cruiseAfter c i = c := by
  cases i with
  | setspd p => cases h
  | _ => rfl

theorem events_of_encodedFrame {i : Instr} {f : Frame} (h : encodedFrame i = some f) (c : Nat) :
    Safety.events c i = some [] ∧ Safety.cruiseAfter c i = c := by
  cases i with
  | encWrite a d | encWrite3 a d0 d1 d2 | encRead a n => exact ⟨rfl, rfl⟩
  | _ => cases h

theorem replay_cons_of_events {i : Instr} {c : Nat} {evs : List Event} (h : Safety.events c i = some evs)
    (is : List Instr) (rx : List Byte) :
    Safety.replay (i :: is) c rx =
      (Safety.replay is (Safety.cruiseAfter c i) rx).map fun r => (evs ++ r.1, r.2) := by
  rw [Safety.replay, h]

theorem replay_init_of_fed {rx : List Byte} (h : 9 ≤ rx.length) (is : List Instr) (c : Nat) :
    Safety.replay (.init :: is) c rx =
      (Safety.replay is c (rx.drop 9)).map fun r => (Safety.initEvents (rx.take 9) ++ r.1, r.2) :=
  if_neg (Nat.not_lt.mpr h)

theorem replay_init_of_starved {rx : List Byte} (h : rx.length < 9) (is : List Instr) (c : Nat) :
    Safety.replay (.init :: is) c rx = none := if_pos h

/-- What a run emits after its first instruction's events is what the rest of it emits. -/
theorem rest_of_replay {rest : Option (List Event × Nat × List Byte)} {evs₁ evs : List Event} {c : Nat} {rx : List Byte}
    (h : (rest.map fun r => (evs₁ ++ r.1, r.2)) = some (evs, c, rx)) :
    ∃ evs₂, rest = some (evs₂, c, rx) ∧ evs = evs₁ ++ evs₂ := by
  obtain ⟨⟨evs₂, c', rx'⟩, hrest, heq⟩ := Option.map_eq_some_iff.mp h
  cases heq
  exact ⟨evs₂, hrest, rfl⟩

/-- The first instruction of a run that is not starved: it adds its own events, and the rest of the run replays from
the state it leaves. -/
theorem exec_of_replay_cons {i : Instr} {is : List Instr} {s : State} {evs : List Event} {c : Nat} {rx : List Byte}
    (hidle : Safety.Idle s) (h : Safety.replay (i :: is) s.cruise s.rx = some (evs, c, rx)) :
    ∃ t evs₁ evs₂, exec i s = .next t ∧ Safety.Idle t ∧ t.pending = s.pending ∧ t.trace = s.trace ++ evs₁ ∧
      Safety.replay is t.cruise t.rx = some (evs₂, c, rx) ∧ evs = evs₁ ++ evs₂ := by
  obtain ⟨t, hexec, heff⟩ := exec_effect i s
  refine ⟨t, ?_⟩
  cases heff with
  | busy hb => exact absurd (hidle.1.symm.trans hb) nofun
  | initStarved hb hi hr => subst hi; rw [replay_init_of_starved hr] at h; cases h
  | initFed hb hi hr =>
    subst hi
    rw [replay_init_of_fed hr] at h
    obtain ⟨evs₂, hrest, rfl⟩ := rest_of_replay h
    exact ⟨_, evs₂, hexec, idle_atRest _, rfl, rfl, hrest, rfl⟩
  | sends evs₁ hb hi he =>
    rw [replay_cons_of_events he, cruiseAfter_of_sendsFrames hi] at h
    obtain ⟨evs₂, hrest, rfl⟩ := rest_of_replay h
    exact ⟨evs₁, evs₂, hexec, idle_atRest _, rfl, rfl, hrest, rfl⟩
  | setspd p hb hi =>
    subst hi
    rw [replay_cons_of_events rfl] at h
    obtain ⟨evs₂, hrest, rfl⟩ := rest_of_replay h
    exact ⟨[], _, hexec, hidle, rfl, (List.append_nil _).symm, hrest, rfl⟩
  | encodes f hb hi =>
    obtain ⟨he, hcruise⟩ := events_of_encodedFrame hi s.cruise
    rw [replay_cons_of_events he, hcruise] at h
    obtain ⟨evs₂, hrest, rfl⟩ := rest_of_replay h
    exact ⟨[], _, hexec, hidle, rfl, (List.append_nil _).symm, hrest, rfl⟩

/-- Settles O58, by induction on the instructions: each is decoded from its own encoding and adds its own events
(20_memory.md section 6). -/
theorem runConcatenatesTheCommands : Obligations.RunConcatenatesTheCommands := by
  intro is
  induction is with
  | nil =>
    intro s evs c rx hidle _ hpending hreplay
    cases hreplay
    exact ⟨s, rfl, hidle, (List.append_nil _).symm, rfl, rfl, hpending⟩
  | cons i is ih =>
    intro s evs c rx hidle hwf hpending hreplay
    obtain ⟨hi, his⟩ := List.forall_mem_cons.mp hwf
    have hstep := step_of_decode hidle.1 hpending (decode_encode hi)
    obtain ⟨s', evs₁, evs₂, hexec, hidle', hpending', htrace, hrest, rfl⟩ :=
      exec_of_replay_cons (s := { s with pending := is.map encode }) hidle hreplay
    obtain ⟨t, hrun, hidle_t, htrace_t, hc, hrx, hpending_t⟩ := ih s' evs₂ c rx hidle' his hpending' hrest
    refine ⟨t, (run_succ_of_step (hstep.trans hexec) _).trans hrun, hidle_t, ?_, hc, hrx, hpending_t⟩
    rw [htrace_t, htrace, List.append_assoc]

end Sys2Proof.Proofs
end
